-- ==== Sys2Proof/Word.lean ====
section
/-! DEFINITION. The word types of the hardware (spec/00_scope.md R5, R10): bit vectors for what the spec treats as
bits, `Fin 16` for what it treats as a number that selects one of sixteen things. -/

namespace Sys2Proof

/-- A register, a memory cell, a timer: 8 bits (R5, `XLEN`). -/
abbrev Byte := BitVec 8

/-- The program counter, the index register, a stack slot, an instruction word: 16 bits (R5). -/
abbrev Word := BitVec 16

/-- The address field `nnn` of an instruction: 12 bits (R71). -/
abbrev Addr := BitVec 12

/-- A register number, the field `x` or `y` of an instruction: 0 to 15 (R71, R75). -/
abbrev RegIdx := Fin 16

/-- A key number, 0x0 to 0xF (R12). -/
abbrev KeyIdx := Fin 16

end Sys2Proof
end

