-- ==== Sys2Proof/Syntax.lean ====
section
/-! DEFINITION. The instruction set as data: one constructor per row of spec/opcode_table.json (spec/30_encoding.md R74
and R76). `x` and `y` are register numbers, `kk` an immediate, `nnn` an address, `n` the sprite height (R71). Bits that
the decoder ignores (R77) are no operands. -/

namespace Sys2Proof

inductive Instr where
  /-- `CLS`, 0--0 (R135). -/
  | cls
  /-- `RET`, 0--E (R103). -/
  | ret
  /-- `SYS nnn`, family 0 with any other low nibble (R97). -/
  | sys (nnn : Addr)
  /-- `JP nnn`, 1nnn (R101). -/
  | jp (nnn : Addr)
  /-- `CALL nnn`, 2nnn (R102). -/
  | call (nnn : Addr)
  /-- `SE Vx,kk`, 3xkk (R105). -/
  | seVxKk (x : RegIdx) (kk : Byte)
  /-- `SNE Vx,kk`, 4xkk (R106). -/
  | sneVxKk (x : RegIdx) (kk : Byte)
  /-- `SE Vx,Vy`, 5xy- (R107). -/
  | seVxVy (x y : RegIdx)
  /-- `LD Vx,kk`, 6xkk (R111). -/
  | ldVxKk (x : RegIdx) (kk : Byte)
  /-- `ADD Vx,kk`, 7xkk (R112). -/
  | addVxKk (x : RegIdx) (kk : Byte)
  /-- `LD Vx,Vy`, 8xy0 (R113). -/
  | ldVxVy (x y : RegIdx)
  /-- `OR Vx,Vy`, 8xy1 (R114). -/
  | orVxVy (x y : RegIdx)
  /-- `AND Vx,Vy`, 8xy2 (R115). -/
  | andVxVy (x y : RegIdx)
  /-- `XOR Vx,Vy`, 8xy3 (R116). -/
  | xorVxVy (x y : RegIdx)
  /-- `ADD Vx,Vy`, 8xy4 (R117). -/
  | addVxVy (x y : RegIdx)
  /-- `SUB Vx,Vy`, 8xy5 (R118). -/
  | subVxVy (x y : RegIdx)
  /-- `SHR Vx`, 8x-6 (R119). -/
  | shrVx (x : RegIdx)
  /-- `SUBN Vx,Vy`, 8xy7 (R120). -/
  | subnVxVy (x y : RegIdx)
  /-- `SHL Vx`, 8x-E (R121). -/
  | shlVx (x : RegIdx)
  /-- `SNE Vx,Vy`, 9xy- (R108). -/
  | sneVxVy (x y : RegIdx)
  /-- `LD I,nnn`, Annn (R125). -/
  | ldI (nnn : Addr)
  /-- `JP V0,nnn`, Bnnn (R104). -/
  | jpV0 (nnn : Addr)
  /-- `RND Vx,kk`, Cxkk (R122). -/
  | rnd (x : RegIdx) (kk : Byte)
  /-- `DRW Vx,Vy,n`, Dxyn (R136). -/
  | drw (x y : RegIdx) (n : Fin 16)
  /-- `SKP Vx`, Ex9E (R148). -/
  | skp (x : RegIdx)
  /-- `SKNP Vx`, ExA1 (R149). -/
  | sknp (x : RegIdx)
  /-- `LD Vx,DT`, Fx07 (R145). -/
  | ldVxDt (x : RegIdx)
  /-- `LD Vx,K`, Fx0A (R150). -/
  | ldVxK (x : RegIdx)
  /-- `LD DT,Vx`, Fx15 (R146). -/
  | ldDtVx (x : RegIdx)
  /-- `LD ST,Vx`, Fx18 (R147). -/
  | ldStVx (x : RegIdx)
  /-- `ADD I,Vx`, Fx1E (R126). -/
  | addIVx (x : RegIdx)
  /-- `LD F,Vx`, Fx29 (R127). -/
  | ldFVx (x : RegIdx)
  /-- `LD B,Vx`, Fx33 (R128). -/
  | ldBVx (x : RegIdx)
  /-- `LD [I],Vx`, Fx55 (R130). -/
  | ldMemVx (x : RegIdx)
  /-- `LD Vx,[I]`, Fx65 (R131). -/
  | ldVxMem (x : RegIdx)
  /-- The reserved words of family 8: selectors 8 to D and F (R76(a), R98). -/
  | nopFamily8
  /-- The reserved words of family E: low bytes other than 9E and A1 (R76(b), R98). -/
  | nopFamilyE
  /-- The reserved words of family F: low bytes other than the nine defined ones (R76(c), R98). -/
  | nopFamilyF
deriving DecidableEq, Repr

end Sys2Proof
end

