-- ==== Sys2Proof/WellFormed.lean ====
section
/-! DEFINITION. Which terms of `Instr` an instruction word stands for. The operand types hold every bound but one: a
word of family 0 whose low nibble is 0 or E is `CLS` or `RET`, never `SYS` (spec/30_encoding.md R77, R79). -/

namespace Sys2Proof

/-- R79: the assembler "must refuse an `nnn` whose low nibble is 0x0 or 0xE, since that word would decode as `CLS` or
`RET`". -/
def sysOperandOk (nnn : Addr) : Bool :=
  nnn.extractLsb' 0 4 != 0x0#4 && nnn.extractLsb' 0 4 != 0xE#4

/-- The check, one arm per constructor. -/
def Instr.wf (i : Instr) : Bool :=
  match i with
  | .cls | .ret => true
  | .sys nnn => sysOperandOk nnn
  | .jp _ | .call _ => true
  | .seVxKk _ _ | .sneVxKk _ _ | .seVxVy _ _ | .sneVxVy _ _ => true
  | .ldVxKk _ _ | .addVxKk _ _ => true
  | .ldVxVy _ _ | .orVxVy _ _ | .andVxVy _ _ | .xorVxVy _ _ => true
  | .addVxVy _ _ | .subVxVy _ _ | .subnVxVy _ _ => true
  | .shrVx _ | .shlVx _ => true
  | .ldI _ | .jpV0 _ => true
  | .rnd _ _ | .drw _ _ _ => true
  | .skp _ | .sknp _ => true
  | .ldVxDt _ | .ldVxK _ | .ldDtVx _ | .ldStVx _ => true
  | .addIVx _ | .ldFVx _ | .ldBVx _ | .ldMemVx _ | .ldVxMem _ => true
  | .nopFamily8 | .nopFamilyE | .nopFamilyF => true

/-- `i` is an instruction that some word encodes. -/
abbrev Instr.WellFormed (i : Instr) : Prop := i.wf = true

end Sys2Proof
end

