-- ==== Sys2Proof/Decode.lean ====
section
/-! DEFINITION. The decoder, the two-level table of spec/30_encoding.md R73, total on the 65536 words; the opcode map of
R74 and R76 as data, to hold the decoder against; and the encoder, written from the same map. -/

namespace Sys2Proof

/-! ## The fields of a word (R71) -/

def famOf (w : Word) : BitVec 4 := w.extractLsb' 12 4

def kkOf (w : Word) : Byte := w.extractLsb' 0 8

def nnnOf (w : Word) : Addr := w.extractLsb' 0 12

/-- The low nibble: the selector of families 0 and 8, the sprite height of family D. -/
def lowNibbleOf (w : Word) : BitVec 4 := w.extractLsb' 0 4

/-- A 4-bit field as a number 0 to 15: register numbers are "always 0–15 by construction of the decode" (R75). -/
def nibbleIdx (b : BitVec 4) : Fin 16 := b.toFin

def xOf (w : Word) : RegIdx := nibbleIdx (w.extractLsb' 8 4)

def yOf (w : Word) : RegIdx := nibbleIdx (w.extractLsb' 4 4)

def nOf (w : Word) : Fin 16 := nibbleIdx (lowNibbleOf w)

/-! ## Level two: the compound families (R73, R76) -/

/-- Family 0, selector the low nibble: "`0x0` → clear screen; `0xE` → return from subroutine; any other value → no-op",
which is `SYS` (R97). Bits 11:4 are not looked at (R77(a), C12). -/
def decodeFamily0 (w : Word) : Instr :=
  match lowNibbleOf w with
  | 0x0#4 => .cls
  | 0xE#4 => .ret
  | _ => .sys (nnnOf w)

/-- Family 8, selector the low nibble: 0 to 7 and E are defined, "other values are no-ops" (R124, R76(a)). -/
def decodeFamily8 (w : Word) : Instr :=
  match lowNibbleOf w with
  | 0x0#4 => .ldVxVy (xOf w) (yOf w)
  | 0x1#4 => .orVxVy (xOf w) (yOf w)
  | 0x2#4 => .andVxVy (xOf w) (yOf w)
  | 0x3#4 => .xorVxVy (xOf w) (yOf w)
  | 0x4#4 => .addVxVy (xOf w) (yOf w)
  | 0x5#4 => .subVxVy (xOf w) (yOf w)
  | 0x6#4 => .shrVx (xOf w)
  | 0x7#4 => .subnVxVy (xOf w) (yOf w)
  | 0xE#4 => .shlVx (xOf w)
  | _ => .nopFamily8

/-- Family E, selector the full low byte (R73, C3). -/
def decodeFamilyE (w : Word) : Instr :=
  match kkOf w with
  | 0x9E#8 => .skp (xOf w)
  | 0xA1#8 => .sknp (xOf w)
  | _ => .nopFamilyE

/-- Family F, selector the full low byte (R73): nine values are defined, "all other byte values are no-ops" (R76(c)). -/
def decodeFamilyF (w : Word) : Instr :=
  match kkOf w with
  | 0x07#8 => .ldVxDt (xOf w)
  | 0x0A#8 => .ldVxK (xOf w)
  | 0x15#8 => .ldDtVx (xOf w)
  | 0x18#8 => .ldStVx (xOf w)
  | 0x1E#8 => .addIVx (xOf w)
  | 0x29#8 => .ldFVx (xOf w)
  | 0x33#8 => .ldBVx (xOf w)
  | 0x55#8 => .ldMemVx (xOf w)
  | 0x65#8 => .ldVxMem (xOf w)
  | _ => .nopFamilyF

/-! ## Level one: the sixteen families (R73) -/

/-- The instruction of a word. In families 5 and 9 the low nibble is not inspected (R73). Family F is the one value the
last arm is left with. -/
def decodeWord (w : Word) : Instr :=
  match famOf w with
  | 0x0#4 => decodeFamily0 w
  | 0x1#4 => .jp (nnnOf w)
  | 0x2#4 => .call (nnnOf w)
  | 0x3#4 => .seVxKk (xOf w) (kkOf w)
  | 0x4#4 => .sneVxKk (xOf w) (kkOf w)
  | 0x5#4 => .seVxVy (xOf w) (yOf w)
  | 0x6#4 => .ldVxKk (xOf w) (kkOf w)
  | 0x7#4 => .addVxKk (xOf w) (kkOf w)
  | 0x8#4 => decodeFamily8 w
  | 0x9#4 => .sneVxVy (xOf w) (yOf w)
  | 0xA#4 => .ldI (nnnOf w)
  | 0xB#4 => .jpV0 (nnnOf w)
  | 0xC#4 => .rnd (xOf w) (kkOf w)
  | 0xD#4 => .drw (xOf w) (yOf w) (nOf w)
  | 0xE#4 => decodeFamilyE w
  | _ => decodeFamilyF w

/-! ## Bytes (R51, R70) -/

/-- Why a byte string is no instruction. No word is illegal (R76), so too few bytes is the only reason. -/
inductive DecodeReject where
  /-- Fewer than the two bytes every instruction has (R70). -/
  | truncated
deriving DecidableEq, Repr

/-- Big-endian: "`op = mem[pc] ++ mem[pc+1]`", the byte at the lower address is the high byte (R51). -/
def wordOfBytes (hi lo : Byte) : Word := hi ++ lo

/-- The two bytes of a word as the hardware stores them, the high byte at the lower address (R70). -/
def bytesOfWord (w : Word) : List Byte := [w.extractLsb' 8 8, w.extractLsb' 0 8]

/-- The instruction a byte string begins with, and the bytes after it. -/
def decode (bytes : List Byte) : Except DecodeReject (Instr × List Byte) :=
  match bytes with
  | hi :: lo :: rest => .ok (decodeWord (wordOfBytes hi lo), rest)
  | [_] => .error .truncated
  | [] => .error .truncated

/-- The host's question: the instruction of the word `w` of `nbits` bits, numbered as spec/opcode_table.json numbers
them (bit 0 the least significant bit of the one 16-bit word). Bits above `nbits` are 0. -/
def decodeTableWord (nbits w : Nat) : Option Instr :=
  if nbits ≤ 16 then
    match decode (bytesOfWord (BitVec.ofNat 16 (w % 2 ^ nbits))) with
    | .ok (i, _) => some i
    | .error _ => none
  else none

/-! ## The opcode map as data (R74, R76, R77) -/

/-- One row of the map: `op` selects it when `op &&& mask = pattern`. `used` has a 1 for every bit that the row fixes or
reads as an operand, so a 0 is an ignored bit (R77). -/
structure OpcodeRow where
  mask : Word
  pattern : Word
  used : Word
deriving DecidableEq, Repr

/-- Families 0 to 7 (R74 rows 1 to 10). -/
def opcodeRowsDirect : List OpcodeRow :=
  [⟨0xF00F, 0x0000, 0xF00F⟩, ⟨0xF00F, 0x000E, 0xF00F⟩, ⟨0xF000, 0x0000, 0xFFFF⟩, ⟨0xF000, 0x1000, 0xFFFF⟩,
   ⟨0xF000, 0x2000, 0xFFFF⟩, ⟨0xF000, 0x3000, 0xFFFF⟩, ⟨0xF000, 0x4000, 0xFFFF⟩, ⟨0xF000, 0x5000, 0xFFF0⟩,
   ⟨0xF000, 0x6000, 0xFFFF⟩, ⟨0xF000, 0x7000, 0xFFFF⟩]

/-- Family 8 (R74 rows 11 to 19). -/
def opcodeRowsFamily8 : List OpcodeRow :=
  [⟨0xF00F, 0x8000, 0xFFFF⟩, ⟨0xF00F, 0x8001, 0xFFFF⟩, ⟨0xF00F, 0x8002, 0xFFFF⟩, ⟨0xF00F, 0x8003, 0xFFFF⟩,
   ⟨0xF00F, 0x8004, 0xFFFF⟩, ⟨0xF00F, 0x8005, 0xFFFF⟩, ⟨0xF00F, 0x8006, 0xFF0F⟩, ⟨0xF00F, 0x8007, 0xFFFF⟩,
   ⟨0xF00F, 0x800E, 0xFF0F⟩]

/-- Families 9 to E (R74 rows 20 to 26). -/
def opcodeRowsUpper : List OpcodeRow :=
  [⟨0xF000, 0x9000, 0xFFF0⟩, ⟨0xF000, 0xA000, 0xFFFF⟩, ⟨0xF000, 0xB000, 0xFFFF⟩, ⟨0xF000, 0xC000, 0xFFFF⟩,
   ⟨0xF000, 0xD000, 0xFFFF⟩, ⟨0xF0FF, 0xE09E, 0xFFFF⟩, ⟨0xF0FF, 0xE0A1, 0xFFFF⟩]

/-- Family F (R74 rows 27 to 35). -/
def opcodeRowsFamilyF : List OpcodeRow :=
  [⟨0xF0FF, 0xF007, 0xFFFF⟩, ⟨0xF0FF, 0xF00A, 0xFFFF⟩, ⟨0xF0FF, 0xF015, 0xFFFF⟩, ⟨0xF0FF, 0xF018, 0xFFFF⟩,
   ⟨0xF0FF, 0xF01E, 0xFFFF⟩, ⟨0xF0FF, 0xF029, 0xFFFF⟩, ⟨0xF0FF, 0xF033, 0xFFFF⟩, ⟨0xF0FF, 0xF055, 0xFFFF⟩,
   ⟨0xF0FF, 0xF065, 0xFFFF⟩]

/-- The reserved words of families 8, E and F (R76): what the rows above leave of each family. -/
def opcodeRowsReserved : List OpcodeRow :=
  [⟨0xF000, 0x8000, 0xF000⟩, ⟨0xF000, 0xE000, 0xF000⟩, ⟨0xF000, 0xF000, 0xF000⟩]

/-- The map: "Rows are tried from top to bottom and the first that matches wins" (R74). -/
def opcodeRows : List OpcodeRow :=
  opcodeRowsDirect ++ opcodeRowsFamily8 ++ opcodeRowsUpper ++ opcodeRowsFamilyF ++ opcodeRowsReserved

def OpcodeRow.selects (r : OpcodeRow) (w : Word) : Bool := w &&& r.mask == r.pattern

/-- The number of the first row that a word selects, counted from 0 (R74's column `#` less 1). -/
def firstRowOf (w : Word) : Nat := opcodeRows.findIdx fun r => r.selects w

/-- The row each constructor stands for, counted from 0. -/
def Instr.row (i : Instr) : Nat :=
  match i with
  | .cls => 0
  | .ret => 1
  | .sys _ => 2
  | .jp _ => 3
  | .call _ => 4
  | .seVxKk _ _ => 5
  | .sneVxKk _ _ => 6
  | .seVxVy _ _ => 7
  | .ldVxKk _ _ => 8
  | .addVxKk _ _ => 9
  | .ldVxVy _ _ => 10
  | .orVxVy _ _ => 11
  | .andVxVy _ _ => 12
  | .xorVxVy _ _ => 13
  | .addVxVy _ _ => 14
  | .subVxVy _ _ => 15
  | .shrVx _ => 16
  | .subnVxVy _ _ => 17
  | .shlVx _ => 18
  | .sneVxVy _ _ => 19
  | .ldI _ => 20
  | .jpV0 _ => 21
  | .rnd _ _ => 22
  | .drw _ _ _ => 23
  | .skp _ => 24
  | .sknp _ => 25
  | .ldVxDt _ => 26
  | .ldVxK _ => 27
  | .ldDtVx _ => 28
  | .ldStVx _ => 29
  | .addIVx _ => 30
  | .ldFVx _ => 31
  | .ldBVx _ => 32
  | .ldMemVx _ => 33
  | .ldVxMem _ => 34
  | .nopFamily8 => 35
  | .nopFamilyE => 36
  | .nopFamilyF => 37

/-- The map's row for an instruction. -/
def Instr.opcodeRow (i : Instr) : OpcodeRow := opcodeRows.getD i.row ⟨0, 0, 0⟩

/-! ## The encoder (R74, with the canonical fillers of R79 for ignored bits) -/

/-- A number 0 to 15 as the 4 bits of its field. -/
def idxNibble (r : Fin 16) : BitVec 4 := BitVec.ofFin r

/-- Format A: a family and a 12-bit address (R72). -/
def encodeA (fam : BitVec 4) (nnn : Addr) : Word := fam ++ nnn

/-- Formats XK and XS: a family, a register, a low byte (R72). -/
def encodeXK (fam : BitVec 4) (x : RegIdx) (kk : Byte) : Word := fam ++ (idxNibble x ++ kk)

/-- Formats XY and XYN: a family, two registers, a low nibble (R72). -/
def encodeXYN (fam : BitVec 4) (x y : RegIdx) (n : BitVec 4) : Word := fam ++ (idxNibble x ++ (idxNibble y ++ n))

/-- The word of an instruction; ignored bits have the fillers of R79 (log 22). The three reserved no-ops, which stand for
many words each, get the least word of their rows (log 21). -/
def encode (i : Instr) : Word :=
  match i with
  | .cls => 0x00E0
  | .ret => 0x00EE
  | .sys nnn => encodeA 0x0 nnn
  | .jp nnn => encodeA 0x1 nnn
  | .call nnn => encodeA 0x2 nnn
  | .seVxKk x kk => encodeXK 0x3 x kk
  | .sneVxKk x kk => encodeXK 0x4 x kk
  | .seVxVy x y => encodeXYN 0x5 x y 0x0
  | .ldVxKk x kk => encodeXK 0x6 x kk
  | .addVxKk x kk => encodeXK 0x7 x kk
  | .ldVxVy x y => encodeXYN 0x8 x y 0x0
  | .orVxVy x y => encodeXYN 0x8 x y 0x1
  | .andVxVy x y => encodeXYN 0x8 x y 0x2
  | .xorVxVy x y => encodeXYN 0x8 x y 0x3
  | .addVxVy x y => encodeXYN 0x8 x y 0x4
  | .subVxVy x y => encodeXYN 0x8 x y 0x5
  | .shrVx x => encodeXYN 0x8 x 0 0x6
  | .subnVxVy x y => encodeXYN 0x8 x y 0x7
  | .shlVx x => encodeXYN 0x8 x 0 0xE
  | .sneVxVy x y => encodeXYN 0x9 x y 0x0
  | .ldI nnn => encodeA 0xA nnn
  | .jpV0 nnn => encodeA 0xB nnn
  | .rnd x kk => encodeXK 0xC x kk
  | .drw x y n => encodeXYN 0xD x y (idxNibble n)
  | .skp x => encodeXK 0xE x 0x9E
  | .sknp x => encodeXK 0xE x 0xA1
  | .ldVxDt x => encodeXK 0xF x 0x07
  | .ldVxK x => encodeXK 0xF x 0x0A
  | .ldDtVx x => encodeXK 0xF x 0x15
  | .ldStVx x => encodeXK 0xF x 0x18
  | .addIVx x => encodeXK 0xF x 0x1E
  | .ldFVx x => encodeXK 0xF x 0x29
  | .ldBVx x => encodeXK 0xF x 0x33
  | .ldMemVx x => encodeXK 0xF x 0x55
  | .ldVxMem x => encodeXK 0xF x 0x65
  | .nopFamily8 => 0x8008
  | .nopFamilyE => 0xE000
  | .nopFamilyF => 0xF000

/-- The bytes of an instruction as memory holds them. -/
def encodeBytes (i : Instr) : List Byte := bytesOfWord (encode i)

end Sys2Proof
end

