-- ==== Sys2Proof/Config.lean ====
section
/-! DEFINITION. What the implementation fixes (spec/00_scope.md R5) and the free values of the model (R6(b), R8).
The two open parameters with a default, `FONT_TABLE` (R6(a)) and `FX29_MASK` (R6(c)), stand in Machine/Font.lean,
where a test that shows another value can still mend them. -/

namespace Sys2Proof

/-- `MEM_SIZE`: memory cells, addresses 0x000 to 0xFFF (R5). -/
def Config.memSize : Nat := 4096

/-- `PROG_BASE`: where `loadProgram` writes, and the reset value of the pc (R5). -/
def Config.progBase : Nat := 0x200

/-- `PROG_MAX`: the largest program image, `4096 - 0x200` bytes (R5). -/
def Config.progMax : Nat := 3584

/-- The key vector of a step that the host's queue says nothing about. FREE VALUE: it has no body, so nothing can be
proved about which keys are held (R8, R27; log 1). -/
opaque Config.freeKeys : Nat → Vector Bool 16

/-- The random byte of a step that the host's queue says nothing about. FREE VALUE: it has no body, so every claim holds
for all 256 values at every step (R8, R31; log 1). -/
opaque Config.freeByte : Nat → Byte

end Sys2Proof
end

