-- ==== Sys2Proof/Machine/Font.lean ====
section
/-! DEFINITION. The two open parameters of spec/00_scope.md R6 that have a default: `FONT_TABLE` (spec/10_state.md R29)
and `FX29_MASK` (spec/43_index_memory.md R127), with the font's place in memory (R5). -/

namespace Sys2Proof.Machine

/-- `FONT_BASE`: the address of the first font byte (R5). -/
def fontBase : Nat := 0x050

/-- `FONT_SIZE`: 16 glyphs of 5 bytes (R5). -/
def fontSize : Nat := 80

/-- The glyphs of the digits 0 to 7, top row first (R29). -/
def fontLow : List (List Byte) :=
  [[0xF0, 0x90, 0x90, 0x90, 0xF0], [0x20, 0x60, 0x20, 0x20, 0x70], [0xF0, 0x10, 0xF0, 0x80, 0xF0],
   [0xF0, 0x10, 0xF0, 0x10, 0xF0], [0x90, 0x90, 0xF0, 0x10, 0x10], [0xF0, 0x80, 0xF0, 0x10, 0xF0],
   [0xF0, 0x80, 0xF0, 0x90, 0xF0], [0xF0, 0x10, 0x20, 0x40, 0x40]]

/-- The glyphs of the digits 8 to F, top row first (R29). -/
def fontHigh : List (List Byte) :=
  [[0xF0, 0x90, 0xF0, 0x90, 0xF0], [0xF0, 0x90, 0xF0, 0x10, 0xF0], [0xF0, 0x90, 0xF0, 0x90, 0x90],
   [0xE0, 0x90, 0xE0, 0x90, 0xE0], [0xF0, 0x80, 0x80, 0x80, 0xF0], [0xE0, 0x90, 0x90, 0x90, 0xE0],
   [0xF0, 0x80, 0xF0, 0x80, 0xF0], [0xF0, 0x80, 0xF0, 0x80, 0x80]]

/-- `FONT_TABLE`, the default of R29. UNVERIFIED, log 4: the spec gives these bytes as general knowledge (G2, D20). -/
def fontTable : List Byte := (fontLow ++ fontHigh).flatten

/-- `FX29_MASK`: `LD F,Vx` uses the low nibble of `Vx` alone. UNVERIFIED, log 6: the spec sets it to true (D13). -/
def fx29Mask : Bool := true

end Sys2Proof.Machine
end

