-- ==== Sys2Proof/Machine/Memory.lean ====
section
/-! DEFINITION. Main memory (spec/10_state.md R29, spec/20_memory.md R50 to R56): a list of (address, byte) pairs in one
canonical form, so that equal memories are equal lists. Addresses are plain numbers; which of them exist is the caller's
check (`Machine/Operands.lean`, `cellsExist`). -/

namespace Sys2Proof.Machine

abbrev Memory := List Host.Cell

/-- What a cell that the list does not name reads as: its contents after reset, which are the font byte in 0x050 to
0x09F and 0 elsewhere (R29, R180). -/
def resetByte (a : Nat) : Byte :=
  if fontBase ≤ a ∧ a < fontBase + fontSize then fontTable.getD (a - fontBase) 0 else 0

/-- `MemRead(a, 1)` (R11). -/
def Memory.read (m : Memory) (a : Nat) : Byte :=
  match m with
  | [] => resetByte a
  | c :: cs => if c.1 = a then c.2 else Memory.read cs a

/-- The list without the cell at `a`. -/
def Memory.without (m : Memory) (a : Nat) : Memory := m.filter fun c => c.1 != a

/-- The list with the cell `(a, v)` put before the first greater address. -/
def Memory.place (m : Memory) (a : Nat) (v : Byte) : Memory :=
  match m with
  | [] => [(a, v)]
  | c :: cs => if a < c.1 then (a, v) :: c :: cs else c :: Memory.place cs a v

/-- `MemWrite(a, 1, v)` (R11). The value an unlisted address reads as is not listed. -/
def Memory.write (m : Memory) (a : Nat) (v : Byte) : Memory :=
  if v = resetByte a then m.without a else (m.without a).place a v

/-- Consecutive cells from `a` up, the first byte at `a`. -/
def Memory.writeBytes (m : Memory) (a : Nat) (bytes : List Byte) : Memory :=
  match bytes with
  | [] => m
  | b :: bs => Memory.writeBytes (m.write a b) (a + 1) bs

/-- The `n` cells from `a` up, lowest address first. -/
def Memory.readBytes (m : Memory) (a n : Nat) : List Byte :=
  match n with
  | 0 => []
  | k + 1 => m.read a :: Memory.readBytes m (a + 1) k

/-- The canonical form: addresses strictly rising, all of them in memory, and no pair equal to what its address reads as
when unlisted. -/
abbrev Memory.wf (m : Memory) : Prop :=
  m.Pairwise (fun c d => c.1 < d.1) ∧ ∀ c ∈ m, c.1 < Config.memSize ∧ c.2 ≠ resetByte c.1

end Sys2Proof.Machine
end

