-- ==== Sys2Proof/Machine/State.lean ====
section
/-! DEFINITION. The machine's state (spec/10_state.md R33), the reasons a step can stop (spec/60_exceptions.md R155), and
the state after reset (spec/70_reset_and_hazards.md R180). -/

namespace Sys2Proof.Machine

/-- The two arguments of one `step` call (R8): which keys are held, and the random byte. -/
structure StepInput where
  keys : Vector Bool 16
  rnd : Byte
deriving DecidableEq, Repr

/-- R33, field by field and under the spec's own names; then the model's own three fields. -/
structure State where
  /-- The sixteen registers; `V[15]` is the flag (R20, R21). -/
  V : Vector Byte 16
  /-- The program counter (R22). -/
  pc : Word
  /-- The index register (R23). -/
  I : Word
  /-- The sixteen saved return addresses (R24). -/
  stack : Vector Word 16
  /-- The number of return addresses saved, 0 to 16 (R25; log 16). -/
  SP : Fin 17
  /-- The delay timer (R26). -/
  DT : Byte
  /-- The sound timer (R26). -/
  ST : Byte
  /-- Which keys are held, as the host last wrote it (R27). -/
  keypad : Vector Bool 16
  /-- The pixels, row-major: column `px` of row `py` is cell `py * 64 + px` (R28). -/
  fb : Vector Bool 2048
  /-- Main memory (R29). -/
  mem : Memory
  /-- The word the latest completed step fetched (R30; log 14). -/
  cur : Word
  /-- The model's own: the `rnd` argument of the step in progress (R8; log 2). -/
  rnd : Byte
  /-- The model's own: the arguments of the coming steps, oldest first (log 1). -/
  inputs : List StepInput
  /-- The model's own: how many steps have been made, the argument of the free values (log 1). -/
  draw : Nat
deriving DecidableEq, Repr

/-- The kinds of fault (R155). Each one is the spec's own and leaves the state as it was (R160), so each is safe: a step
that faults proves nothing about a next state. -/
inductive Fault where
  /-- Code 1: `loadProgram` of more than 3584 bytes (R156). No step raises it. Safe. -/
  | programTooLarge
  /-- Code 2: a fetch with `pc >= 4095`, or `LD B`, `LD [I]`, `LD Vx,[I]`, `DRW` touching a cell above 4095 (R157). Safe;
  the data half is the spec's decision D10 (log 8). -/
  | addressOutOfRange
  /-- Code 3: `CALL` at `SP = 16` (R158). Safe. -/
  | stackOverflow
  /-- Code 4: `RET` at `SP = 0` (R158). Safe. -/
  | stackUnderflow
  /-- Code 5: nothing raises it, the number is kept so that the list matches the spec's (R159; log 20). Safe. -/
  | invalidRegisterIndex
  /-- Code 6: `SKP` or `SKNP` with `V[x] > 15` (R161). Safe; the spec's decision D11 (log 9). -/
  | invalidKeyIndex
deriving DecidableEq, Repr

/-- Why the model has no meaning for an instruction. Every instruction has one, so nothing raises it. -/
inductive Refusal where
  /-- Raised by an arm of `exec` whose instruction is not modelled; there is none. Safe. -/
  | notModelled (mnemonic : String)
deriving DecidableEq, Repr

/-- R180: every field at the value the spec states. The model's own fields: log 2. -/
def State.reset : State where
  V := Vector.replicate 16 0
  pc := 0x200
  I := 0
  stack := Vector.replicate 16 0
  SP := 0
  DT := 0
  ST := 0
  keypad := Vector.replicate 16 false
  fb := Vector.replicate 2048 false
  mem := []
  cur := 0
  rnd := 0
  inputs := []
  draw := 0

end Sys2Proof.Machine
end

