-- ==== Sys2Proof/Machine/Ops.lean ====
section
/-! DEFINITION. The named operations on the state: registers, the call stack, the pc, the fetch, the timers, the host's
write of a step's arguments, and what a fault does. Every instruction meaning is built from these. -/

namespace Sys2Proof.Machine

/-- What a meaning answers. -/
abbrev Result := Host.Outcome State Fault Refusal

/-! ## Faults (spec/60_exceptions.md) -/

/-- Fault entry, for every fault of every instruction and of the fetch: "There is no trap handler inside the machine: no
vector table, no handler address, no saved `pc`, no cause or status register, no mode change" (R163). The step answers
the fault's kind and nothing else; the state stays as it was (R160), so no state is answered. There is no return from a
fault (R163). What the machine holds afterwards is `faultState`. -/
def raise (f : Fault) : Result := .fault f

/-- The code of a fault (R155). -/
def faultCode (f : Fault) : Nat :=
  match f with
  | .programTooLarge => 1
  | .addressOutOfRange => 2
  | .stackOverflow => 3
  | .stackUnderflow => 4
  | .invalidRegisterIndex => 5
  | .invalidKeyIndex => 6

/-- Goes on with a next state, and passes a fault or a refusal through. -/
def onNext (r : Result) (k : State → State) : Result :=
  match r with
  | .next s => .next (k s)
  | .fault f => .fault f
  | .refused q => .refused q

/-! ## Registers (spec/10_state.md R20, R23, R26) -/

/-- `V[r]`. No register is hardwired (R20). -/
def State.getV (s : State) (r : RegIdx) : Byte := s.V[r.val]

/-- `V[r] <- v`. -/
def State.setV (s : State) (r : RegIdx) (v : Byte) : State := { s with V := s.V.set r.val v }

/-- `pc <- v`. -/
def State.setPc (s : State) (v : Word) : State := { s with pc := v }

/-- `I <- v`. -/
def State.setI (s : State) (v : Word) : State := { s with I := v }

/-- `DT <- v`. -/
def State.setDT (s : State) (v : Byte) : State := { s with DT := v }

/-- `ST <- v`. -/
def State.setST (s : State) (v : Byte) : State := { s with ST := v }

/-- The framebuffer as a whole. -/
def State.setFb (s : State) (v : Vector Bool 2048) : State := { s with fb := v }

/-- Main memory as a whole. -/
def State.setMem (s : State) (m : Memory) : State := { s with mem := m }

/-- "The pixel at column `px` (0 to 63, 0 at the left) and row `py` (0 to 31, 0 at the top) is `fb[py * 64 + px]`" (R28). -/
def pixelAt (fb : Vector Bool 2048) (px : Fin 64) (py : Fin 32) : Bool :=
  have inside : py.val * 64 + px.val < 2048 := by omega
  fb[py.val * 64 + px.val]

/-! ## The stack controller (spec/10_state.md R24, R25; spec/41_control_flow.md R102, R103) -/

/-- `stack[SP] <- v ; SP <- SP + 1`, or nothing when all sixteen slots are taken. -/
def State.pushReturn (s : State) (v : Word) : Option State :=
  if h : s.SP.val < 16 then
    some { s with stack := s.stack.set s.SP.val v h, SP := ⟨s.SP.val + 1, Nat.succ_lt_succ h⟩ }
  else none

/-- `SP <- SP - 1`, and the slot at the new `SP`; or nothing when no slot is taken. The slot keeps its value (R24). -/
def State.popReturn (s : State) : Option (Word × State) :=
  if 0 < s.SP.val then
    have below : s.SP.val - 1 < 16 := by omega
    some (s.stack[s.SP.val - 1], { s with SP := ⟨s.SP.val - 1, Nat.lt_succ_of_lt below⟩ })
  else none

/-! ## Skips (spec/41_control_flow.md R100) -/

/-- `if cond then pc <- pc + 2`: over exactly one instruction. -/
def State.skipIf (s : State) (cond : Bool) : State := if cond then s.setPc (s.pc + 2) else s

/-! ## The fetch (spec/20_memory.md R53) -/

/-- `MemRead(pc, 2)`, or nothing when `pc + 1 >= 4096`. The comparison is over unbounded integers (log 12). -/
def State.fetch (s : State) : Option Word :=
  if s.pc.toNat + 1 ≥ Config.memSize then none
  else some (s.mem.read s.pc.toNat ++ s.mem.read (s.pc.toNat + 1))

/-- `cur <- op ; pc <- a + 2`: phases 1 and 2 of the cycle, once the fetch has succeeded (R90). -/
def State.advance (s : State) (op : Word) : State := { s with cur := op, pc := s.pc + 2 }

/-! ## The timer countdown engine (spec/60_exceptions.md R166) -/

/-- Down by 1, floor 0. -/
def countDown (v : Byte) : Byte := if v = 0 then 0 else v - 1

/-- Phase 4 of every step that does not fault. -/
def State.tickTimers (s : State) : State := { s with DT := countDown s.DT, ST := countDown s.ST }

/-! ## The host's write before a step (spec/00_scope.md R8, spec/10_state.md R27) -/

/-- `keypad[0..15] <- keys[0..15]`, and the step's random byte. -/
def State.withArgs (s : State) (keys : Vector Bool 16) (rnd : Byte) : State := { s with keypad := keys, rnd := rnd }

/-- The arguments of the coming step: the oldest queued ones, or free values (log 1). -/
def State.nextInput (s : State) : StepInput :=
  match s.inputs with
  | [] => ⟨Config.freeKeys s.draw, Config.freeByte s.draw⟩
  | input :: _ => input

/-- Takes the arguments of the coming step off the queue and writes them. -/
def State.latchInput (s : State) : State :=
  { s.withArgs s.nextInput.keys s.nextInput.rnd with inputs := s.inputs.tail, draw := s.draw + 1 }

/-! ## Placing an instruction -/

/-- Stores a word, high byte first, where the next step fetches. Where no fetch is possible (`pc >= 4095`) the pc goes to
the entry point first (log 18). -/
def State.placeFetchWord (s : State) (w : Word) : State :=
  let at' : Nat := if s.pc.toNat + 1 < Config.memSize then s.pc.toNat else Config.progBase
  { s with pc := BitVec.ofNat 16 at', mem := s.mem.writeBytes at' [w.extractLsb' 8 8, w.extractLsb' 0 8] }

end Sys2Proof.Machine
end

