-- ==== Sys2Proof/Machine/Operands.lean ====
section
/-! DEFINITION. How operands become values and addresses: zero extension (spec/30_encoding.md R75), the one addressing
mode `I + k` and its range check (spec/43_index_memory.md R129, spec/20_memory.md R56), glyph addresses, decimal digits,
key numbers. -/

namespace Sys2Proof.Machine

/-- `zext_16(nnn)` (R75). -/
def zextAddr (nnn : Addr) : Word := nnn.setWidth 16

/-- `zext_16(v)` of a register's value (R104, R126). -/
def zextByte (v : Byte) : Word := v.setWidth 16

/-- The effective address of the `k`-th cell an instruction touches: "an unbounded integer sum of the 16-bit value of `I`
and `k`" (R129). -/
def effAddr (i : Word) (k : Nat) : Nat := i.toNat + k

/-- Every one of the `count` cells from `I` up is in memory; no cell, no check (R56, log 8). -/
abbrev cellsExist (i : Word) (count : Nat) : Prop := count = 0 ∨ effAddr i count ≤ Config.memSize

/-- `0x050 + 5 * (V[x] & 0x0F)`: the address of the glyph of a digit (R127; the mask is log 6). -/
def glyphAddr (v : Byte) : Word :=
  BitVec.ofNat 16 (fontBase + 5 * (if fx29Mask then v &&& 0x0F else v).toNat)

/-- The decimal digits of a byte, hundreds, tens, units (R128). -/
def decimalDigits (v : Byte) : List Byte :=
  [BitVec.ofNat 8 (v.toNat / 100), BitVec.ofNat 8 (v.toNat / 10 % 10), BitVec.ofNat 8 (v.toNat % 10)]

/-- `V[0]` to `V[x]`, `x + 1` registers by register number (R130, log 11). -/
def State.lowRegisters (s : State) (x : RegIdx) : List Byte := s.V.toList.take (x.val + 1)

/-- `V[i] <- MemRead(I + i, 1)` for `i` in 0 to `x`; the registers above `x` stay (R131). -/
def State.loadLowRegisters (s : State) (x : RegIdx) : State :=
  { s with V := Vector.ofFn fun r : Fin 16 => if r ≤ x then s.mem.read (effAddr s.I r.val) else s.getV r }

/-- A register's value as a key number: the whole byte, not its low nibble (R148, log 9). -/
def keyIndex (v : Byte) : Option KeyIdx := if h : v.toNat < 16 then some ⟨v.toNat, h⟩ else none

/-- `keypad[k]`. -/
def State.keyHeld (s : State) (k : KeyIdx) : Bool := s.keypad[k.val]

/-- The lowest-numbered key that is held: "checking key 0 first" (R150). -/
def State.lowestKey (s : State) : Option KeyIdx := (List.finRange 16).find? fun k => s.keyHeld k

end Sys2Proof.Machine
end

