-- ==== Sys2Proof/Machine/Flags.lean ====
section
/-! DEFINITION. The flag `V[15]` (spec/10_state.md R21) and the five flag computations of the register file and ALU
(spec/42_alu.md R110, R123). Every flag is 0 or 1 and is computed from the operand values read before any write. -/

namespace Sys2Proof.Machine

/-- `VF`, register 15 (R21). -/
def vf : RegIdx := 15

/-- A flag as a register's value: 1 or 0 (R21). -/
def flagByte (f : Bool) : Byte := if f then 1 else 0

/-- The carry of an addition, "taken from the 9-bit sum": 1 iff `a + b > 255` (R117, R123). -/
def carryOf (a b : Byte) : Bool := a.toNat + b.toNat > 255

/-- The flag of a subtraction `a - b`: 1 iff `a > b`, strictly, so 0 when the operands are equal (R118, R120, C4). -/
def strictlyGreater (a b : Byte) : Bool := a.toNat > b.toNat

/-- The bit a right shift moves out: `a & 1` (R119). -/
def shiftedOutRight (a : Byte) : Bool := a &&& 1 == 1

/-- The bit a left shift moves out: `(a & 0x80) >> 7` (R121). -/
def shiftedOutLeft (a : Byte) : Bool := (a &&& 0x80) >>> 7 == 1

/-- `V[15] <- f`. -/
def State.setFlag (s : State) (f : Bool) : State := s.setV vf (flagByte f)

/-- `V[x] <- r ; V[15] <- f`, the flag written last, so with `x = 15` the flag stays (R110, log 7). -/
def State.setResultAndFlag (s : State) (x : RegIdx) (r : Byte) (f : Bool) : State := (s.setV x r).setFlag f

end Sys2Proof.Machine
end

