-- ==== Sys2Proof/Machine/Alu.lean ====
section
/-! DEFINITION. Register file and ALU (spec/42_alu.md). Results are reduced modulo 256 (R123), which the 8-bit operations
do. -/

namespace Sys2Proof.Machine

/-- `LD Vx,kk` (R111). -/
def execLdVxKk (x : RegIdx) (kk : Byte) (s : State) : Result := .next (s.setV x kk)

/-- `ADD Vx,kk`: "8-bit wraparound add, no flag touched" (R112). -/
def execAddVxKk (x : RegIdx) (kk : Byte) (s : State) : Result := .next (s.setV x (s.getV x + kk))

/-- `LD Vx,Vy` (R113). -/
def execLdVxVy (x y : RegIdx) (s : State) : Result := .next (s.setV x (s.getV y))

/-- `OR Vx,Vy`: "bitwise, no flag touched" (R114). -/
def execOrVxVy (x y : RegIdx) (s : State) : Result := .next (s.setV x (s.getV x ||| s.getV y))

/-- `AND Vx,Vy`: "bitwise, no flag touched" (R115). -/
def execAndVxVy (x y : RegIdx) (s : State) : Result := .next (s.setV x (s.getV x &&& s.getV y))

/-- `XOR Vx,Vy`: "bitwise, no flag touched" (R116). -/
def execXorVxVy (x y : RegIdx) (s : State) : Result := .next (s.setV x (s.getV x ^^^ s.getV y))

/-- `ADD Vx,Vy` (R117). -/
def execAddVxVy (x y : RegIdx) (s : State) : Result :=
  .next (s.setResultAndFlag x (s.getV x + s.getV y) (carryOf (s.getV x) (s.getV y)))

/-- `SUB Vx,Vy` (R118). -/
def execSubVxVy (x y : RegIdx) (s : State) : Result :=
  .next (s.setResultAndFlag x (s.getV x - s.getV y) (strictlyGreater (s.getV x) (s.getV y)))

/-- `SHR Vx`: the source is `Vx`; the `y` field is ignored (R119). -/
def execShrVx (x : RegIdx) (s : State) : Result :=
  .next (s.setResultAndFlag x (s.getV x >>> 1) (shiftedOutRight (s.getV x)))

/-- `SUBN Vx,Vy` (R120). -/
def execSubnVxVy (x y : RegIdx) (s : State) : Result :=
  .next (s.setResultAndFlag x (s.getV y - s.getV x) (strictlyGreater (s.getV y) (s.getV x)))

/-- `SHL Vx`: the source is `Vx`; the `y` field is ignored (R121). -/
def execShlVx (x : RegIdx) (s : State) : Result :=
  .next (s.setResultAndFlag x (s.getV x <<< 1) (shiftedOutLeft (s.getV x)))

/-- `RND Vx,kk`: the random byte is the step's own argument (R122, R8). -/
def execRnd (x : RegIdx) (kk : Byte) (s : State) : Result := .next (s.setV x (s.rnd &&& kk))

end Sys2Proof.Machine
end

