-- ==== Sys2Proof/Machine/Control.lean ====
section
/-! DEFINITION. Control transfer and the stack controller (spec/41_control_flow.md). On entry `pc` is the address of the
instruction plus 2 (spec/40_step_cycle.md R90). No target is checked when the transfer is made (R100). -/

namespace Sys2Proof.Machine

/-- `JP nnn` (R101). -/
def execJp (nnn : Addr) (s : State) : Result := .next (s.setPc (zextAddr nnn))

/-- `CALL nnn`: the pc after the fetch-advance is pushed; a seventeenth return address is `StackOverflow` (R102). -/
def execCall (nnn : Addr) (s : State) : Result :=
  match s.pushReturn s.pc with
  | some t => .next (t.setPc (zextAddr nnn))
  | none => raise .stackOverflow

/-- `RET`: all 16 bits of the popped slot go to the pc; with no return address saved, `StackUnderflow` (R103). -/
def execRet (s : State) : Result :=
  match s.popReturn with
  | some (target, t) => .next (t.setPc target)
  | none => raise .stackUnderflow

/-- `JP V0,nnn`: a 16-bit sum, "must not truncate to 8 bits" (R104, C5). -/
def execJpV0 (nnn : Addr) (s : State) : Result := .next (s.setPc (zextByte (s.getV 0) + zextAddr nnn))

/-- `SE Vx,kk` (R105; that it skips when equal is log 17). -/
def execSeVxKk (x : RegIdx) (kk : Byte) (s : State) : Result := .next (s.skipIf (s.getV x == kk))

/-- `SNE Vx,kk` (R106). -/
def execSneVxKk (x : RegIdx) (kk : Byte) (s : State) : Result := .next (s.skipIf (s.getV x != kk))

/-- `SE Vx,Vy` (R107). -/
def execSeVxVy (x y : RegIdx) (s : State) : Result := .next (s.skipIf (s.getV x == s.getV y))

/-- `SNE Vx,Vy` (R108). -/
def execSneVxVy (x y : RegIdx) (s : State) : Result := .next (s.skipIf (s.getV x != s.getV y))

end Sys2Proof.Machine
end

