-- ==== Sys2Proof/Machine/Display.lean ====
section
/-! DEFINITION. The framebuffer write unit (spec/44_display.md), written as R136 writes it: pixel after pixel, row after
row, each one clipped on its own (log 10). -/

namespace Sys2Proof.Machine

/-- The framebuffer while a sprite is drawn, and whether a pixel that was on has been turned off. -/
structure Canvas where
  fb : Vector Bool 2048
  hit : Bool
deriving DecidableEq, Repr

/-- One sprite bit at column `px`, row `py`: nothing past either edge (R136(b)), nothing for a 0 bit; a 1 bit toggles the
cell, and a cell that was on is a collision. -/
def drawPixel (px py : Nat) (bit : Bool) (c : Canvas) : Canvas :=
  if h : px ≤ 63 ∧ py ≤ 31 then
    have inside : py * 64 + px < 2048 := by omega
    if bit then
      { fb := c.fb.set (py * 64 + px) (!c.fb[py * 64 + px]), hit := c.hit || c.fb[py * 64 + px] }
    else c
  else c

/-- One sprite row: bit `7 - k` of the byte goes to column `x0 + k` (R138). -/
def drawRow (x0 py : Nat) (row : Byte) (c : Canvas) : Canvas :=
  (List.range 8).foldl (fun d k => drawPixel (x0 + k) py (row.getLsbD (7 - k)) d) c

/-- The sprite's rows, downward from row `py` (R138). -/
def drawRows (x0 py : Nat) (rows : List Byte) (c : Canvas) : Canvas :=
  match rows with
  | [] => c
  | row :: rest => drawRows x0 (py + 1) rest (drawRow x0 py row c)

/-- `CLS`: "framebuffer set entirely off" (R135). -/
def execCls (s : State) : Result := .next (s.setFb (Vector.replicate 2048 false))

/-- `DRW Vx,Vy,n`: both coordinates and all rows are read before anything is written; only the origin wraps (R136). -/
def execDrw (x y : RegIdx) (n : Fin 16) (s : State) : Result :=
  if cellsExist s.I n.val then
    let c := drawRows ((s.getV x).toNat % 64) ((s.getV y).toNat % 32) (s.mem.readBytes (effAddr s.I 0) n.val) ⟨s.fb, false⟩
    .next ((s.setFlag c.hit).setFb c.fb)
  else raise .addressOutOfRange

end Sys2Proof.Machine
end

