-- ==== Sys2Proof/Machine/Index.lean ====
section
/-! DEFINITION. Index register, loads and stores (spec/43_index_memory.md). No instruction that uses `I` as a base changes
it (R129, log 11), and all cells are range-checked before the first write (R56). -/

namespace Sys2Proof.Machine

/-- `LD I,nnn` (R125). -/
def execLdI (nnn : Addr) (s : State) : Result := .next (s.setI (zextAddr nnn))

/-- `ADD I,Vx`: modulo 65536, no flag (R126). -/
def execAddIVx (x : RegIdx) (s : State) : Result := .next (s.setI (s.I + zextByte (s.getV x)))

/-- `LD F,Vx` (R127). -/
def execLdFVx (x : RegIdx) (s : State) : Result := .next (s.setI (glyphAddr (s.getV x)))

/-- `LD B,Vx`: hundreds at `I`, tens at `I + 1`, units at `I + 2` (R128). -/
def execLdBVx (x : RegIdx) (s : State) : Result :=
  if cellsExist s.I 3 then
    .next (s.setMem (s.mem.writeBytes (effAddr s.I 0) (decimalDigits (s.getV x))))
  else raise .addressOutOfRange

/-- `LD [I],Vx`: `V[0]` to `V[x]` into `x + 1` cells, `V[0]` at `I` (R130). -/
def execLdMemVx (x : RegIdx) (s : State) : Result :=
  if cellsExist s.I (x.val + 1) then
    .next (s.setMem (s.mem.writeBytes (effAddr s.I 0) (s.lowRegisters x)))
  else raise .addressOutOfRange

/-- `LD Vx,[I]`: `x + 1` cells into `V[0]` to `V[x]` (R131). -/
def execLdVxMem (x : RegIdx) (s : State) : Result :=
  if cellsExist s.I (x.val + 1) then .next (s.loadLowRegisters x)
  else raise .addressOutOfRange

end Sys2Proof.Machine
end

