-- ==== Sys2Proof/Machine/NoOps.lean ====
section
/-! DEFINITION. The no-ops (spec/40_step_cycle.md R97, R98): the execute phase does nothing; the cycle still moves the pc
and counts the timers. -/

namespace Sys2Proof.Machine

/-- `SYS nnn`: "no-op (reserved/legacy machine-code call, intentionally unimplemented)"; `nnn` is ignored (R97). -/
def execSys (_nnn : Addr) (s : State) : Result := .next s

/-- A reserved word of family 8: no field of it is read (R98). -/
def execNopFamily8 (s : State) : Result := .next s

/-- A reserved word of family E: no key check is made (R98). -/
def execNopFamilyE (s : State) : Result := .next s

/-- A reserved word of family F (R98). -/
def execNopFamilyF (s : State) : Result := .next s

end Sys2Proof.Machine
end

