-- ==== Sys2Proof/Machine/TimersKeypad.lean ====
section
/-! DEFINITION. Timer and keypad instructions (spec/45_timers_keypad.md). The countdown itself is the cycle's phase 4. -/

namespace Sys2Proof.Machine

/-- `LD Vx,DT`: the value before this step's countdown (R145). -/
def execLdVxDt (x : RegIdx) (s : State) : Result := .next (s.setV x s.DT)

/-- `LD DT,Vx` (R146). -/
def execLdDtVx (x : RegIdx) (s : State) : Result := .next (s.setDT (s.getV x))

/-- `LD ST,Vx` (R147). -/
def execLdStVx (x : RegIdx) (s : State) : Result := .next (s.setST (s.getV x))

/-- `SKP Vx`: skip if the key is held; a key number above 15 is `InvalidKeyIndex` (R148, log 9). -/
def execSkp (x : RegIdx) (s : State) : Result :=
  match keyIndex (s.getV x) with
  | some k => .next (s.skipIf (s.keyHeld k))
  | none => raise .invalidKeyIndex

/-- `SKNP Vx`: skip if the key is not held (R149). -/
def execSknp (x : RegIdx) (s : State) : Result :=
  match keyIndex (s.getV x) with
  | some k => .next (s.skipIf (!s.keyHeld k))
  | none => raise .invalidKeyIndex

/-- `LD Vx,K`: the lowest held key, or back to this instruction (R150). The step completes either way. -/
def execLdVxK (x : RegIdx) (s : State) : Result :=
  .next (match s.lowestKey with
    | some k => s.setV x (BitVec.ofNat 8 k.val)
    | none => s.setPc (s.pc - 2))

end Sys2Proof.Machine
end

