-- ==== Sys2Proof/Machine/Cycle.lean ====
section
/-! DEFINITION. The four-phase cycle of spec/40_step_cycle.md R90, once the host's write of the step's arguments is done.
The fetch bound is checked first, then the one fault of the decoded instruction (spec/60_exceptions.md R162). -/

namespace Sys2Proof.Machine

/-- Phases 2 to 4 for a fetched word: advance, decode and execute, count the timers down. -/
def runWord (op : Word) (s : State) : Result :=
  onNext (exec (decodeWord op) (s.advance op)) fun t => t.tickTimers

/-- Phases 1 to 4. -/
def cycle (s : State) : Result :=
  match s.fetch with
  | some op => runWord op s
  | none => raise .addressOutOfRange

end Sys2Proof.Machine
end

