-- ==== Sys2Proof/Machine/Step.lean ====
section
/-! DEFINITION. The step of the machine as the host's interface has it, a function of the state alone: the step's
arguments come from the state's own queue, or are free values (log 1). Everything it does stands in Machine/Ops.lean and
Machine/Cycle.lean. -/

namespace Sys2Proof.Machine

/-- `step(keys, rnd)` (spec/40_step_cycle.md R90) for the arguments `s.nextInput`. -/
def step (s : State) : Host.Outcome State Fault Refusal := cycle s.latchInput

/-- The state with the word `w` of `nbits` bits, numbered as spec/opcode_table.json numbers them, stored where the next
step fetches. It stands for the load of a program from outside (log 3). -/
def State.withFetchWord (s : State) (nbits w : Nat) : State := s.placeFetchWord (BitVec.ofNat 16 (w % 2 ^ nbits))

end Sys2Proof.Machine
end

