-- ==== Sys2Proof/Machine/Transactions.lean ====
section
/-! DEFINITION. The interface of the core as hardware: the transactions of spec/00_scope.md R9 that the host makes between
steps, each with its answer and the state it leaves, a fault included (spec/60_exceptions.md R160). -/

namespace Sys2Proof.Machine

/-- What the host can ask of the core (R9, R93). -/
inductive Transaction where
  | reset
  | loadProgram (bytes : List Byte)
  | step (keys : Vector Bool 16) (rnd : Byte)
  | readFramebuffer
  | readTimers
deriving DecidableEq, Repr

/-- What the core answers (R9). `refused` is no answer of the hardware: it passes on a step the model has no meaning for,
and no step is (Machine/State.lean, `Refusal`). -/
inductive Response where
  | ok
  | fault (f : Fault)
  | framebuffer (pixels : Vector Bool 2048)
  | timers (dt st : Byte)
  | refused (q : Refusal)
deriving DecidableEq, Repr

/-- `loadProgram(bytes)`: the bytes from 0x200 up and nothing else, or `ProgramTooLarge` and nothing at all (R96, R156). -/
def loadProgram (bytes : List Byte) (s : State) : Result :=
  if bytes.length > Config.progMax then raise .programTooLarge
  else .next (s.setMem (s.mem.writeBytes Config.progBase bytes))

/-- `step(keys, rnd)`: the host's write, then the cycle (R90). -/
def stepWith (keys : Vector Bool 16) (rnd : Byte) (s : State) : Result := cycle (s.withArgs keys rnd)

/-- `reset` at any time between steps (R181). What the host has yet to supply, the model's own `inputs` and `draw`, is no
part of the machine and stays (log 2). -/
def hostReset (s : State) : State := { State.reset with inputs := s.inputs, draw := s.draw }

/-- `sound_active = (ST > 0)` (R168). -/
def soundActive (s : State) : Bool := s.ST != 0

/-- The answer to a transaction that ended with `r`. -/
def responseOf (r : Result) : Response :=
  match r with
  | .next _ => .ok
  | .fault f => .fault f
  | .refused q => .refused q

/-- The state a transaction leaves: the next one, or after a fault the state it began from, "after the host's keypad
write" (R160), which `before` holds. -/
def faultState (before : State) (r : Result) : State :=
  match r with
  | .next t => t
  | .fault _ => before
  | .refused _ => before

/-- One transaction: its answer and the state it leaves. -/
def transact (q : Transaction) (s : State) : Response × State :=
  match q with
  | .reset => (.ok, hostReset s)
  | .loadProgram bytes => (responseOf (loadProgram bytes s), faultState s (loadProgram bytes s))
  | .step keys rnd => (responseOf (stepWith keys rnd s), faultState (s.withArgs keys rnd) (stepWith keys rnd s))
  | .readFramebuffer => (.framebuffer s.fb, s)
  | .readTimers => (.timers s.DT s.ST, s)

/-- A session of the host: its transactions in order, the answers in the same order, and the state at the end (R57(a)). -/
def session (qs : List Transaction) (s : State) : List Response × State :=
  match qs with
  | [] => ([], s)
  | q :: rest => ((transact q s).1 :: (session rest (transact q s).2).1, (session rest (transact q s).2).2)

end Sys2Proof.Machine
end

