-- ==== Sys2Proof/Safety.lean ====
section
/-! DEFINITION. What counts as a safe run, in the terms that claims use: the launch premises of
spec/70_reset_and_hazards.md R183 (the names are D1, log 25), the states that can be reached (spec/10_state.md R35), and the invariant of R35. -/

namespace Sys2Proof.Machine

/-- The step completes: neither a fault nor a refusal (R160, R163: a state whose step faults is never a good end). -/
def SafeStep (s : State) : Prop := ∃ t, step s = .next t

/-- `n` steps complete. -/
def SafeRun (n : Nat) (s : State) : Prop := ∃ t, Sys2Proof.core.run n s = .next t

/-- `FreshReset`: the state is the reset state of R180, whatever the host is going to supply (R183). -/
def FreshReset (s : State) : Prop := s = { State.reset with inputs := s.inputs, draw := s.draw }

/-- `Loaded(bytes)`: the image fits, stands from 0x200 up, and every other cell is as at reset (R183). -/
def Loaded (bytes : List Byte) (s : State) : Prop :=
  bytes.length ≤ Config.progMax ∧
    ∀ a, s.mem.read a =
      if Config.progBase ≤ a ∧ a < Config.progBase + bytes.length then bytes.getD (a - Config.progBase) 0 else resetByte a

/-- `NoFault`: "no step of the run returned `Fault`" (R183). What a load answered does not count. -/
def NoFault (qs : List Transaction) (s : State) : Prop :=
  ∀ p ∈ qs.zip (session qs s).1, ∀ keys rnd, p.1 = .step keys rnd → ∀ f, p.2 ≠ .fault f

/-- What holds in every state reachable from reset (R35): memory in canonical form, every saved return address at most
4096, the pc at most 0x10FE. The bounds on the other fields are facts of their types. -/
def State.Inv (s : State) : Prop :=
  s.mem.wf ∧ (∀ k : Fin 16, k.val < s.SP.val → s.stack[k.val].toNat ≤ 4096) ∧ s.pc.toNat ≤ 0x10FE

/-- The states the host can bring the machine to from reset (R93). -/
inductive Reachable : State → Prop where
  | reset : Reachable State.reset
  | transact (q : Transaction) (s : State) : Reachable s → Reachable (transact q s).2

end Sys2Proof.Machine
end

