-- ==== Sys2Proof/Certificates/Slice0/Obligations.lean ====
section
/-! DEFINITION. The statements for the provers. Each docstring names the rule of spec/ that it formalises; a statement that
rests on a point the spec itself marks as its own decision or as general knowledge says so and names the log entry. -/

namespace Sys2Proof.Claims

open Sys2Proof.Machine

/-- `t` is `s` but for the registers listed: every other register and every other field of the state is the same. -/
def SameButRegisters (rs : List RegIdx) (s t : State) : Prop :=
  t = { s with V := t.V } ∧ ∀ r, r ∉ rs → t.getV r = s.getV r

/-- Memory reads the same at every address outside the `count` cells from `I` up that an instruction stores to. -/
def SameOutside (s t : State) (count : Nat) : Prop :=
  ∀ a, a < effAddr s.I 0 ∨ effAddr s.I count ≤ a → t.mem.read a = s.mem.read a

/-- The bytes of the instruction at the pc. -/
def bytesAtPc (s : State) : List Byte := [s.mem.read s.pc.toNat, s.mem.read (s.pc.toNat + 1)]

/-- The instruction at the pc. -/
def instrAtPc (s : State) : Instr := decodeWord (s.mem.read s.pc.toNat ++ s.mem.read (s.pc.toNat + 1))

/-- The state after phases 1 and 2 of the cycle, on which the execute phase begins (R90). -/
def fetched (s : State) : State :=
  { s with cur := s.mem.read s.pc.toNat ++ s.mem.read (s.pc.toNat + 1), pc := s.pc + 2 }

/-- The state after phase 4: both timers down by 1, floor 0 (R90, R166). -/
def ticked (t : State) : State :=
  { t with DT := if t.DT = 0 then 0 else t.DT - 1, ST := if t.ST = 0 then 0 else t.ST - 1 }

/-- The one fault an instruction's execute phase can raise, with its condition (R157, R158, R161, R162). -/
def executeFault (i : Instr) (s : State) : Option Fault :=
  match i with
  | .call _ => if s.SP.val = 16 then some .stackOverflow else none
  | .ret => if s.SP.val = 0 then some .stackUnderflow else none
  | .skp x | .sknp x => if (s.getV x).toNat > 15 then some .invalidKeyIndex else none
  | .ldBVx _ => if s.I.toNat > 4093 then some .addressOutOfRange else none
  | .ldMemVx x | .ldVxMem x => if s.I.toNat + x.val > 4095 then some .addressOutOfRange else none
  | .drw _ _ n => if 1 ≤ n.val ∧ s.I.toNat + n.val - 1 > 4095 then some .addressOutOfRange else none
  | _ => none

/-- The bytes that an instruction stores at `I` and up: the three decimal digits of `LD B,Vx` (R128), the registers of
`LD [I],Vx` (R130), none for every other instruction. -/
def storedBytes (i : Instr) (s : State) : List Byte :=
  match i with
  | .ldBVx x =>
    [BitVec.ofNat 8 ((s.getV x).toNat / 100), BitVec.ofNat 8 ((s.getV x).toNat / 10 % 10),
      BitVec.ofNat 8 ((s.getV x).toNat % 10)]
  | .ldMemVx x => List.ofFn fun r : Fin (x.val + 1) => s.getV ⟨r.val, Nat.lt_of_lt_of_le r.isLt x.isLt⟩
  | _ => []

/-- What address `a` reads as after `i` has executed on `s`: a stored byte, or what it read as before. -/
def byteAfter (i : Instr) (s : State) (a : Nat) : Byte :=
  if effAddr s.I 0 ≤ a ∧ a < effAddr s.I (storedBytes i s).length then (storedBytes i s).getD (a - effAddr s.I 0) 0
  else s.mem.read a

/-- The word that a fetch at `a` gives after `i` has executed on `s`. -/
def wordAfter (i : Instr) (s : State) (a : Nat) : Word := byteAfter i s a ++ byteAfter i s (a + 1)

/-- One `step(keys, rnd)` transaction with the arguments of a queue entry. -/
def asStep (input : StepInput) : Transaction := .step input.keys input.rnd

/-- `CALL`s one after another, each execute phase on the state the one before left. -/
def callAll (targets : List Addr) (s : State) : Result :=
  match targets with
  | [] => .next s
  | nnn :: rest =>
    match exec (.call nnn) s with
    | .next t => callAll rest t
    | .fault f => .fault f
    | .refused q => .refused q

/-- Whether the sprite of `DRW x,y,n` on `s` has a set bit over the pixel at column `px`, row `py`: the origin is
`(V[x] mod 64, V[y] mod 32)`, row `r` is the byte at `I + r`, and bit 7 of a byte is its leftmost pixel (R136, R138). -/
def spriteCovers (x y : RegIdx) (n : Fin 16) (s : State) (px : Fin 64) (py : Fin 32) : Prop :=
  ∃ r c, r < n.val ∧ c < 8 ∧ py.val = (s.getV y).toNat % 32 + r ∧ px.val = (s.getV x).toNat % 64 + c ∧
    (s.mem.read (effAddr s.I r)).getLsbD (7 - c) = true

/-- Some value of `DT` other than the countdown's: the instruction at the pc is `LD DT,Vx`. -/
def writesDT (i : Instr) : Prop := ∃ x, i = .ldDtVx x

/-- None of the next `n` steps executes `LD DT,Vx`. -/
def NoDTWrite (n : Nat) (s : State) : Prop :=
  match n with
  | 0 => True
  | k + 1 => ¬writesDT (instrAtPc s) ∧ ∀ t, step s = .next t → NoDTWrite k t

end Sys2Proof.Claims

open Sys2Proof Sys2Proof.Machine Sys2Proof.Claims

/-! ## Encoding and decode (spec/30_encoding.md) -/

/-- Decoding the bytes of any well-formed instruction, whatever follows them, gives the instruction back with every
operand, and leaves what follows (R71, R74, R79). -/
def Obligations.EncodedInstructionsDecodeBack : Prop :=
  ∀ (i : Instr) (rest : List Byte), i.WellFormed → decode (encodeBytes i ++ rest) = .ok (i, rest)

/-- The two-level decoder of R73 and the ordered opcode map of R74 and R76 are the same decoder: the instruction of a word
belongs to the first row that the word selects. Which instruction a row stands for is, for most rows, general knowledge
that the spec marks as such (G1, D3; log 5). -/
def Obligations.TwoLevelDecoderFollowsOpcodeMap : Prop :=
  ∀ w : Word, firstRowOf w = (decodeWord w).row

/-- Decoding loses nothing but ignored bits: every word decodes to a well-formed instruction whose own encoding has the
word's bits wherever the instruction's row fixes a bit or reads an operand (R71, R73, R77). -/
def Obligations.DecodeKeepsEveryUsedBit : Prop :=
  ∀ w : Word, (decodeWord w).WellFormed ∧
    encode (decodeWord w) &&& (decodeWord w).opcodeRow.used = w &&& (decodeWord w).opcodeRow.used

/-- R77: bits 11:4 of `CLS` and `RET`, bits 3:0 of `SE Vx,Vy` and `SNE Vx,Vy`, bits 7:4 of `SHR` and `SHL` are ignored;
`JP V0,nnn` has no `x` field; `SYS` ignores `nnn` altogether. The word that an encoder emits for an instruction is one of its
words. The clauses rest on the spec's decisions D5 and D3 (log 5) and D26 with G5 (the fillers of R79, log 22), and for the
reserved no-ops on words the model chose (log 21). -/
def Obligations.IgnoredBitsMakeAliases : Prop :=
  (∀ w : Word, famOf w = 0x0 → lowNibbleOf w = 0x0 → decodeWord w = .cls) ∧
  (∀ w : Word, famOf w = 0x0 → lowNibbleOf w = 0xE → decodeWord w = .ret) ∧
  (∀ (x y : RegIdx) (low : BitVec 4), decodeWord (encodeXYN 0x5 x y low) = .seVxVy x y ∧
    decodeWord (encodeXYN 0x9 x y low) = .sneVxVy x y) ∧
  (∀ x y : RegIdx, decodeWord (encodeXYN 0x8 x y 0x6) = .shrVx x ∧ decodeWord (encodeXYN 0x8 x y 0xE) = .shlVx x) ∧
  (∀ nnn : Addr, decodeWord (encodeA 0xB nnn) = .jpV0 nnn) ∧
  (∀ (nnn mmm : Addr) (s : State), exec (.sys nnn) s = exec (.sys mmm) s) ∧
  (∀ w : Word, decodeWord (encode (decodeWord w)) = decodeWord w)

/-- R76 and R98: the reserved words are exactly those of family 8 with selector 8 to D or F, of family E with a low byte
other than 9E and A1, and of family F with a low byte other than the nine defined ones; a step that fetches one advances
the pc by 2, counts the timers down, changes nothing else (but the latch of the fetched word), and completes. That the latch
holds the word after the step is the spec's decision D21 (R30; log 14). -/
def Obligations.ReservedWordsRunAsNoOps : Prop :=
  (∀ w : Word, decodeWord w = .nopFamily8 ↔ famOf w = 0x8 ∧ lowNibbleOf w ∈ [0x8#4, 0x9#4, 0xA#4, 0xB#4, 0xC#4, 0xD#4, 0xF#4]) ∧
  (∀ w : Word, decodeWord w = .nopFamilyE ↔ famOf w = 0xE ∧ kkOf w ∉ [0x9E#8, 0xA1#8]) ∧
  (∀ w : Word, decodeWord w = .nopFamilyF ↔ famOf w = 0xF ∧
    kkOf w ∉ [0x07#8, 0x0A#8, 0x15#8, 0x18#8, 0x1E#8, 0x29#8, 0x33#8, 0x55#8, 0x65#8]) ∧
  (∀ (keys : Vector Bool 16) (rnd : Byte) (s : State), s.pc.toNat ≤ 4094 →
    instrAtPc s ∈ [.nopFamily8, .nopFamilyE, .nopFamilyF] →
    stepWith keys rnd s = .next (ticked (fetched { s with keypad := keys, rnd := rnd })))

/-- Words written out from the encodings of R74 and R76, one or more of every format and of each of the sixteen families (a
sanity statement). Which instruction a family or selector stands for is, for most of them, the spec's decision D3 and general
knowledge G1 (log 5). -/
def Obligations.SampleWordsDecode : Prop :=
  decodeWord 0b0000_0000_1110_0000 = .cls ∧ decodeWord 0b0000_0000_1110_1110 = .ret ∧
  decodeWord 0b0000_0001_0010_0011 = .sys 0x123 ∧ decodeWord 0b0001_1010_1011_1100 = .jp 0xABC ∧
  decodeWord 0b0011_0011_0010_1010 = .seVxKk 3 0x2A ∧ decodeWord 0b0110_0000_0000_0101 = .ldVxKk 0 0x05 ∧
  decodeWord 0b1000_0001_0010_0101 = .subVxVy 1 2 ∧ decodeWord 0b1010_0010_0001_0000 = .ldI 0x210 ∧
  decodeWord 0b1101_0001_0010_0101 = .drw 1 2 5 ∧ decodeWord 0b1110_0001_1001_1110 = .skp 1 ∧
  decodeWord 0b1111_0001_0101_0101 = .ldMemVx 1 ∧ decodeWord 0b1000_0001_0010_1000 = .nopFamily8 ∧
  decodeWord 0b0010_0011_0000_0000 = .call 0x300 ∧ decodeWord 0b0100_0011_0010_1010 = .sneVxKk 3 0x2A ∧
  decodeWord 0b0101_0001_0010_0000 = .seVxVy 1 2 ∧ decodeWord 0b0111_0010_0000_0101 = .addVxKk 2 0x05 ∧
  decodeWord 0b1001_0001_0010_0000 = .sneVxVy 1 2 ∧ decodeWord 0b1011_0001_0010_0011 = .jpV0 0x123 ∧
  decodeWord 0b1100_0001_0000_1111 = .rnd 1 0x0F

/-! ## The step cycle (spec/40_step_cycle.md, spec/60_exceptions.md) -/

/-- A step runs the decoded instruction (R90): with a fetchable pc and bytes there that decode to `i`, the machine's step is
the execute phase of `i` on the state that holds the step's arguments, the fetched word in `cur` and the pc moved past the
word, and then the countdown of both timers. The arguments are the oldest queued ones, or free values (the model's choice,
log 1). That `cur` holds the word after the step is the spec's decision D21 (R30; log 14). -/
def Obligations.StepRunsTheDecodedInstruction : Prop :=
  ∀ (s : State) (i : Instr), s.pc.toNat ≤ 4094 → decode (bytesAtPc s) = .ok (i, []) →
    step s = onNext (exec i (fetched { s with
      keypad := s.nextInput.keys, rnd := s.nextInput.rnd, inputs := s.inputs.tail, draw := s.draw + 1 })) ticked

/-- R90: `step(keys, rnd)` writes the key vector, raises `AddressOutOfRange` if `pc + 1 >= 4096`, and otherwise fetches two
bytes, high byte first, advances the pc by 2, executes, and counts both timers down, floor 0. A fault of the execute phase
is the step's fault, and a step that faults has no effect but the host's write of its arguments. The bound over unbounded
integers is the spec's decision D17 (log 12); what the machine holds after a fault is the model's choice of form, with D28
(log 15), and the written `rnd` is the model's own field (log 2). That `cur` holds the word after the step, and stays at a
fault, is D21 (R30; log 14). -/
def Obligations.StepFollowsTheFourPhases : Prop :=
  ∀ (keys : Vector Bool 16) (rnd : Byte) (s : State),
    (4096 ≤ s.pc.toNat + 1 → stepWith keys rnd s = .fault .addressOutOfRange) ∧
    (s.pc.toNat + 1 < 4096 →
      stepWith keys rnd s = onNext (exec (instrAtPc s) (fetched { s with keypad := keys, rnd := rnd })) ticked) ∧
    (∀ f, stepWith keys rnd s = .fault f → transact (.step keys rnd) s = (.fault f, { s with keypad := keys, rnd := rnd }))

/-- After a step that completes, `cur` holds the word fetched, `mem[pc] * 256 + mem[pc+1]` (R51): no instruction writes it.
That the latch is kept between steps is the spec's decision D21 (log 14). -/
def Obligations.CurHoldsTheFetchedWord : Prop :=
  ∀ s t : State, step s = .next t →
    t.cur.toNat = (s.mem.read s.pc.toNat).toNat * 256 + (s.mem.read (s.pc.toNat + 1)).toNat

/-- Every instruction has a meaning: no step is refused. -/
def Obligations.NoStepIsRefused : Prop :=
  ∀ (s : State) (q : Refusal), step s ≠ .refused q

/-- A step faults exactly when the fetch is out of range, with `AddressOutOfRange`, or the decoded instruction meets its own
one fault condition; the fetch is checked first (R155, R157, R158, R161, R162). The data half of `AddressOutOfRange` and
`InvalidKeyIndex` are the spec's decisions D10 and D11 (log 8, log 9); the fetch bound over unbounded integers is D17
(log 12). -/
def Obligations.StepFaultsExactlyWhen : Prop :=
  ∀ (s : State) (f : Fault), step s = .fault f ↔
    (4095 ≤ s.pc.toNat ∧ f = .addressOutOfRange) ∨
    (s.pc.toNat ≤ 4094 ∧ executeFault (instrAtPc s) s = some f)

/-- R160: a step that faults leaves every field as it was after the host's write of the step's arguments, and a load that
faults leaves the state as it was. That what a fault leaves is said by `transact` is the model's choice, and that the keypad
write stands is the spec's decision D28 (log 15); the written `rnd` is the model's own field (log 2). -/
def Obligations.FaultLeavesTheState : Prop :=
  (∀ (keys : Vector Bool 16) (rnd : Byte) (s : State) (f : Fault), (transact (.step keys rnd) s).1 = .fault f →
    (transact (.step keys rnd) s).2 = { s with keypad := keys, rnd := rnd }) ∧
  (∀ (bytes : List Byte) (s : State) (f : Fault), (transact (.loadProgram bytes) s).1 = .fault f →
    (transact (.loadProgram bytes) s).2 = s)

/-- After a step that faulted, the next step, whatever its arguments, faults with the same kind (R163, which derives it from
R160 and R155). -/
def Obligations.FaultRepeats : Prop :=
  ∀ (keys keys' : Vector Bool 16) (rnd rnd' : Byte) (s : State) (f : Fault),
    (transact (.step keys rnd) s).1 = .fault f →
    (transact (.step keys' rnd') (transact (.step keys rnd) s).2).1 = .fault f

/-! ## Reset, load, invariants (spec/70_reset_and_hazards.md, spec/40_step_cycle.md R96, spec/10_state.md R35) -/

/-- R180: what reset leaves, whatever the state before it: every field, and every cell of memory, 0 but for the font.
`FONT_TABLE` is the parameter of R29 (log 4). That reset may come in any state is the spec's decision D23 (log 25); what
addresses above 4095 read as is the model's choice (log 26). -/
def Obligations.ResetLeavesTheResetValues : Prop :=
  ∀ s : State, ∃ t, transact .reset s = (.ok, t) ∧
    (∀ r, t.getV r = 0) ∧ t.pc = 0x200 ∧ t.I = 0 ∧ (∀ k : Fin 16, t.stack[k.val] = 0) ∧ t.SP = 0 ∧ t.DT = 0 ∧ t.ST = 0 ∧
    (∀ k : Fin 16, t.keypad[k.val] = false) ∧ (∀ px py, pixelAt t.fb px py = false) ∧ t.cur = 0 ∧
    (∀ i, i < 80 → t.mem.read (0x050 + i) = fontTable.getD i 0) ∧
    (∀ a, a < 0x050 ∨ 0x0A0 ≤ a → t.mem.read a = 0)

/-- R96 and R156: an image of at most 3584 bytes is copied from 0x200 up and nothing else changes; a longer one raises
`ProgramTooLarge`. That a load may be made in any state is the spec's decision D19 (log 25). -/
def Obligations.LoadProgramCopiesTheImage : Prop :=
  ∀ (bytes : List Byte) (s : State),
    (bytes.length ≤ 3584 → ∃ t, loadProgram bytes s = .next t ∧ t = { s with mem := t.mem } ∧
      (∀ i, i < bytes.length → t.mem.read (0x200 + i) = bytes.getD i 0) ∧
      (∀ a, a < 0x200 ∨ 0x200 + bytes.length ≤ a → t.mem.read a = s.mem.read a)) ∧
    (3584 < bytes.length → loadProgram bytes s = .fault .programTooLarge)

/-- Boot: reset gives `FreshReset`, and a load of an image that fits then gives `Loaded`, both answered `Ok`, with every field
of the machine but memory still at its reset value (R182: "A program may rely on those zeros"), the pc at 0x200 and memory in
canonical form (R183). The names, and a reset in any state, are the spec's decisions D1 and D23 (log 25); the queue of inputs
is the model's own and stays (log 2). -/
def Obligations.BootGivesTheLaunchPremises : Prop :=
  ∀ (bytes : List Byte) (s : State), bytes.length ≤ 3584 →
    FreshReset (transact .reset s).2 ∧
    ∃ t, session [.reset, .loadProgram bytes] s = ([.ok, .ok], t) ∧ Loaded bytes t ∧ t.pc = 0x200 ∧ t.mem.wf ∧
      t = { State.reset with mem := t.mem, inputs := s.inputs, draw := s.draw }

/-- The reset state meets the invariant. -/
def Obligations.ResetMeetsTheInvariant : Prop := State.reset.Inv

/-- Every step keeps the invariant of R35, from every state that meets it: memory in canonical form, every saved return
address at most 4096, the pc at most 0x10FE. -/
def Obligations.StepKeepsTheInvariant : Prop :=
  ∀ s t : State, s.Inv → step s = .next t → t.Inv

/-- Each of the host's transactions keeps the invariant of R35, from every state that meets it and with every answer, a fault
included; so every state reached from reset by them meets it. That the host does nothing else, and may reset and load in any
state, are the spec's decisions D1, D19 and D23 (log 25); the list of transactions is the model's form (log 23). -/
def Obligations.ReachableStatesMeetTheInvariant : Prop :=
  (∀ (q : Transaction) (s : State), s.Inv → (transact q s).2.Inv) ∧ ∀ s : State, Reachable s → s.Inv

/-! ## No-ops and control transfer (spec/40_step_cycle.md, spec/41_control_flow.md) -/

/-- R97 and R98: `SYS` and the reserved no-ops execute and do nothing; a step that fetches one of their words advances the pc by
2, counts the timers down, changes nothing else (but the latch of the fetched word), and completes. That the latch holds the
word after the step is the spec's decision D21 (R30; log 14). -/
def Obligations.NoOpsDoNothing : Prop :=
  ∀ s : State, (∀ nnn, exec (.sys nnn) s = .next s) ∧ exec .nopFamily8 s = .next s ∧ exec .nopFamilyE s = .next s ∧
    exec .nopFamilyF s = .next s ∧
    (∀ (keys : Vector Bool 16) (rnd : Byte), s.pc.toNat ≤ 4094 →
      (∃ nnn, instrAtPc s = .sys nnn) ∨ instrAtPc s ∈ [.nopFamily8, .nopFamilyE, .nopFamilyF] →
      stepWith keys rnd s = .next (ticked (fetched { s with keypad := keys, rnd := rnd })))

/-- R101: `JP nnn` puts the full 12-bit address in the pc and changes nothing else. -/
def Obligations.JumpSetsThePc : Prop :=
  ∀ (nnn : Addr) (s : State), ∃ t, exec (.jp nnn) s = .next t ∧ t.pc.toNat = nnn.toNat ∧ t = { s with pc := t.pc }

/-- R102: `CALL nnn` with a free slot saves the pc in slot `SP`, counts `SP` up and jumps, and changes nothing else; with
`SP = 16` it raises `StackOverflow`. -/
def Obligations.CallSavesThePcAndJumps : Prop :=
  ∀ (nnn : Addr) (s : State),
    (s.SP.val < 16 → ∃ t, exec (.call nnn) s = .next t ∧
      (∀ k : Fin 16, t.stack[k.val] = if k.val = s.SP.val then s.pc else s.stack[k.val]) ∧
      t.SP.val = s.SP.val + 1 ∧ t.pc.toNat = nnn.toNat ∧ t = { s with stack := t.stack, SP := t.SP, pc := t.pc }) ∧
    (s.SP.val = 16 → exec (.call nnn) s = .fault .stackOverflow)

/-- R103: `RET` with a saved address counts `SP` down and puts all 16 bits of the slot at the new `SP` in the pc; the slot
keeps its value and nothing else changes; with `SP = 0` it raises `StackUnderflow`. That the popped slot keeps its value is the
spec's decision D22 (R24; log 14). -/
def Obligations.RetTakesTheSavedPc : Prop :=
  ∀ s : State,
    (∀ k : Fin 16, s.SP.val = k.val + 1 → ∃ t, exec .ret s = .next t ∧ t.pc = s.stack[k.val] ∧ t.SP.val = k.val ∧
      t = { s with SP := t.SP, pc := t.pc }) ∧
    (s.SP.val = 0 → exec .ret s = .fault .stackUnderflow)

/-- Call and return are inverse: a `RET` from any state with the stack and `SP` that a `CALL` left resumes at the instruction
following the `CALL`, and `SP` is what it was before it (R109, which derives it from R102 and R103). -/
def Obligations.CallThenRetResumes : Prop :=
  ∀ (nnn : Addr) (s t u : State), exec (.call nnn) s = .next t → u.SP = t.SP → u.stack = t.stack →
    ∃ v, exec .ret u = .next v ∧ v.pc = s.pc ∧ v.SP = s.SP

/-- R158: 16 consecutive `CALL`s from an empty stack succeed and a seventeenth fails with `StackOverflow`; `CALL` at
`SP = 16` raises it from any state; a `RET` with an empty stack fails with `StackUnderflow`. -/
def Obligations.SixteenCallsThenOverflow : Prop :=
  (∀ (targets : List Addr) (s : State), s.SP.val = 0 → targets.length = 16 →
    ∃ t, callAll targets s = .next t ∧ t.SP.val = 16 ∧ ∀ nnn, exec (.call nnn) t = .fault .stackOverflow) ∧
  (∀ (nnn : Addr) (s : State), s.SP.val = 16 → exec (.call nnn) s = .fault .stackOverflow) ∧
  (∀ s : State, s.SP.val = 0 → exec .ret s = .fault .stackUnderflow)

/-- R104: `JP V0,nnn` puts the exact sum of `V[0]` and all 12 bits of `nnn` in the pc and changes nothing else. -/
def Obligations.JumpV0AddsTheFullAddress : Prop :=
  ∀ (nnn : Addr) (s : State), ∃ t, exec (.jpV0 nnn) s = .next t ∧
    t.pc.toNat = (s.getV 0).toNat + nnn.toNat ∧ t = { s with pc := t.pc }

/-- R105 to R108: the four skips add 2 to the pc or leave it, and change nothing else. That `SE` skips when equal and `SNE`
when not is general knowledge that the spec marks as such (R99, G4; log 17). -/
def Obligations.SkipsMoveThePcByTwo : Prop :=
  ∀ (x y : RegIdx) (kk : Byte) (s : State),
    exec (.seVxKk x kk) s = .next { s with pc := if s.getV x = kk then s.pc + 2 else s.pc } ∧
    exec (.sneVxKk x kk) s = .next { s with pc := if s.getV x = kk then s.pc else s.pc + 2 } ∧
    exec (.seVxVy x y) s = .next { s with pc := if s.getV x = s.getV y then s.pc + 2 else s.pc } ∧
    exec (.sneVxVy x y) s = .next { s with pc := if s.getV x = s.getV y then s.pc else s.pc + 2 }

/-! ## Register file and ALU (spec/42_alu.md) -/

/-- R111 and R113: `LD Vx,kk` and `LD Vx,Vy` assign, for every register `V[15]` included, and change nothing else. -/
def Obligations.RegisterLoadsAssign : Prop :=
  ∀ (x y : RegIdx) (kk : Byte) (s : State),
    (∃ t, exec (.ldVxKk x kk) s = .next t ∧ t.getV x = kk ∧ SameButRegisters [x] s t) ∧
    (∃ t, exec (.ldVxVy x y) s = .next t ∧ t.getV x = s.getV y ∧ SameButRegisters [x] s t)

/-- R112: `ADD Vx,kk` adds modulo 256 and touches no flag (no register but `Vx`). -/
def Obligations.AddImmediateTouchesNoFlag : Prop :=
  ∀ (x : RegIdx) (kk : Byte) (s : State), ∃ t, exec (.addVxKk x kk) s = .next t ∧
    (t.getV x).toNat = ((s.getV x).toNat + kk.toNat) % 256 ∧ SameButRegisters [x] s t

/-- R114, R115, R116: `OR`, `AND`, `XOR` act on each of the 8 bits and touch no flag (no register but `Vx`). -/
def Obligations.BitwiseOpsActBitByBit : Prop :=
  ∀ (x y : RegIdx) (s : State),
    (∃ t, exec (.orVxVy x y) s = .next t ∧ SameButRegisters [x] s t ∧
      ∀ b, b < 8 → (t.getV x).getLsbD b = ((s.getV x).getLsbD b || (s.getV y).getLsbD b)) ∧
    (∃ t, exec (.andVxVy x y) s = .next t ∧ SameButRegisters [x] s t ∧
      ∀ b, b < 8 → (t.getV x).getLsbD b = ((s.getV x).getLsbD b && (s.getV y).getLsbD b)) ∧
    (∃ t, exec (.xorVxVy x y) s = .next t ∧ SameButRegisters [x] s t ∧
      ∀ b, b < 8 → (t.getV x).getLsbD b = ((s.getV x).getLsbD b ^^ (s.getV y).getLsbD b))

/-- R117: `ADD Vx,Vy` gives the sum modulo 256 and the carry of the 9-bit sum, and writes no register but `Vx` and `V[15]`.
With `x = 15` the flag stays and the sum is lost: the spec's decision D12 (R110; log 7). -/
def Obligations.AddSetsTheCarry : Prop :=
  ∀ (x y : RegIdx) (s : State), ∃ t, exec (.addVxVy x y) s = .next t ∧ SameButRegisters [x, 15] s t ∧
    (x ≠ 15 → (t.getV x).toNat = ((s.getV x).toNat + (s.getV y).toNat) % 256) ∧
    (t.getV 15).toNat = if (s.getV x).toNat + (s.getV y).toNat > 255 then 1 else 0

/-- R118 and R120: `SUB` and `SUBN` give the difference modulo 256 and a flag that is 1 iff the left operand of the
subtraction is strictly greater, so 0 when they are equal; no register but `Vx` and `V[15]` is written. With `x = 15` the
flag stays: the spec's decision D12 (R110; log 7). -/
def Obligations.SubtractionsSetTheStrictFlag : Prop :=
  ∀ (x y : RegIdx) (s : State),
    (∃ t, exec (.subVxVy x y) s = .next t ∧ SameButRegisters [x, 15] s t ∧
      (x ≠ 15 → (t.getV x).toNat = ((s.getV x).toNat + 256 - (s.getV y).toNat) % 256) ∧
      (t.getV 15).toNat = if (s.getV x).toNat > (s.getV y).toNat then 1 else 0) ∧
    (∃ t, exec (.subnVxVy x y) s = .next t ∧ SameButRegisters [x, 15] s t ∧
      (x ≠ 15 → (t.getV x).toNat = ((s.getV y).toNat + 256 - (s.getV x).toNat) % 256) ∧
      (t.getV 15).toNat = if (s.getV y).toNat > (s.getV x).toNat then 1 else 0)

/-- R119 and R121: `SHR` and `SHL` shift `Vx` by one, the vacated bit 0, the bit shifted out in the flag; no register but
`Vx` and `V[15]` is written. With `x = 15` the flag stays: the spec's decision D12 (R110; log 7). -/
def Obligations.ShiftsMoveTheBitToTheFlag : Prop :=
  ∀ (x : RegIdx) (s : State),
    (∃ t, exec (.shrVx x) s = .next t ∧ SameButRegisters [x, 15] s t ∧
      (x ≠ 15 → (t.getV x).toNat = (s.getV x).toNat / 2) ∧ (t.getV 15).toNat = (s.getV x).toNat % 2) ∧
    (∃ t, exec (.shlVx x) s = .next t ∧ SameButRegisters [x, 15] s t ∧
      (x ≠ 15 → (t.getV x).toNat = 2 * (s.getV x).toNat % 256) ∧ (t.getV 15).toNat = (s.getV x).toNat / 128)

/-- R122: `RND Vx,kk` gives `rnd & kk`, for every value of the step's random byte, and changes nothing else; every other
instruction ignores the byte: with another byte it ends the same way, in the same state but for the byte itself. -/
def Obligations.RandomByteReachesRndAlone : Prop :=
  (∀ (x : RegIdx) (kk : Byte) (s : State), ∃ t, exec (.rnd x kk) s = .next t ∧ SameButRegisters [x] s t ∧
    ∀ b, b < 8 → (t.getV x).getLsbD b = (s.rnd.getLsbD b && kk.getLsbD b)) ∧
  (∀ (i : Instr) (s : State) (byte : Byte), (∀ x kk, i ≠ .rnd x kk) →
    exec i { s with rnd := byte } = onNext (exec i s) fun t => { t with rnd := byte })

/-! ## Index register, loads and stores (spec/43_index_memory.md) -/

/-- R125 and R126: `LD I,nnn` and `ADD I,Vx` (modulo 65536) write `I` alone; no flag (the spec derives that from R21). -/
def Obligations.IndexIsSetAndAdded : Prop :=
  ∀ (nnn : Addr) (x : RegIdx) (s : State),
    (∃ t, exec (.ldI nnn) s = .next t ∧ t.I.toNat = nnn.toNat ∧ t = { s with I := t.I }) ∧
    (∃ t, exec (.addIVx x) s = .next t ∧ t.I.toNat = (s.I.toNat + (s.getV x).toNat) % 65536 ∧ t = { s with I := t.I })

/-- R127: `LD F,Vx` puts the address of the glyph of the low nibble of `Vx` in `I` and changes nothing else. Masking to the
low nibble is the spec's decision D13 (log 6). -/
def Obligations.FontAddressIsTheGlyphOfTheLowNibble : Prop :=
  ∀ (x : RegIdx) (s : State), ∃ t, exec (.ldFVx x) s = .next t ∧
    t.I.toNat = 0x050 + 5 * ((s.getV x).toNat % 16) ∧ t = { s with I := t.I }

/-- R128: `LD B,Vx` with `I <= 4093` stores the hundreds, tens and units digit at `I`, `I + 1`, `I + 2`, leaves every other
byte of memory, and changes nothing else; with `I > 4093` it raises `AddressOutOfRange`, the spec's decision D10 (log 8). -/
def Obligations.DecimalDigitsAreStored : Prop :=
  ∀ (x : RegIdx) (s : State),
    (s.I.toNat ≤ 4093 → ∃ t, exec (.ldBVx x) s = .next t ∧ t = { s with mem := t.mem } ∧
      (t.mem.read (effAddr s.I 0)).toNat = (s.getV x).toNat / 100 ∧
      (t.mem.read (effAddr s.I 1)).toNat = (s.getV x).toNat / 10 % 10 ∧
      (t.mem.read (effAddr s.I 2)).toNat = (s.getV x).toNat % 10 ∧ SameOutside s t 3) ∧
    (4093 < s.I.toNat → exec (.ldBVx x) s = .fault .addressOutOfRange)

/-- R130: `LD [I],Vx` with `I + x <= 4095` stores `V[0]` to `V[x]` from `I` up, leaves every other byte of memory, `I` and
every register, and changes nothing else; otherwise it raises `AddressOutOfRange` (D10, log 8). That the bound is the
register number (G6) and that `I` stays (D15) are the spec's own (log 11). -/
def Obligations.BlockStoreWritesTheRegisters : Prop :=
  ∀ (x : RegIdx) (s : State),
    (s.I.toNat + x.val ≤ 4095 → ∃ t, exec (.ldMemVx x) s = .next t ∧ t = { s with mem := t.mem } ∧
      (∀ r : RegIdx, r ≤ x → t.mem.read (effAddr s.I r.val) = s.getV r) ∧ SameOutside s t (x.val + 1)) ∧
    (4095 < s.I.toNat + x.val → exec (.ldMemVx x) s = .fault .addressOutOfRange)

/-- R131: `LD Vx,[I]` with `I + x <= 4095` loads `V[0]` to `V[x]` from `I` up, leaves the registers above `x`, memory and
`I`, and changes nothing else; otherwise it raises `AddressOutOfRange` (D10, log 8; D15 and G6, log 11). -/
def Obligations.BlockLoadReadsTheRegisters : Prop :=
  ∀ (x : RegIdx) (s : State),
    (s.I.toNat + x.val ≤ 4095 → ∃ t, exec (.ldVxMem x) s = .next t ∧ t = { s with V := t.V } ∧
      ∀ r : RegIdx, t.getV r = if r ≤ x then s.mem.read (effAddr s.I r.val) else s.getV r) ∧
    (4095 < s.I.toNat + x.val → exec (.ldVxMem x) s = .fault .addressOutOfRange)

/-- `LD [I],Vx` and then, with the same `I` and the memory it left, `LD Vx,[I]` gives `V[0]` to `V[x]` the values that were
stored (a corner case of R131; D15 and G6, log 11). -/
def Obligations.BlockStoreThenLoadRestores : Prop :=
  ∀ (x : RegIdx) (s t u : State), exec (.ldMemVx x) s = .next t → u.mem = t.mem → u.I = t.I →
    ∃ v, exec (.ldVxMem x) u = .next v ∧ ∀ r : RegIdx, r ≤ x → v.getV r = s.getV r

/-- Fetch is coherent with stores, with no action needed (R59, which derives it from R53 and R57). After any completed
instruction, `LD B,Vx` and `LD [I],Vx` among them, a step from the memory it left runs the word that the stored bytes and the
bytes beside them make at the pc, be one byte of it stored or both. So does the very next step of the machine, while the
storing step itself ran the word that stood in memory before it. Which bytes are stored is R128 for `LD B,Vx` and R130 for
`LD [I],Vx`, whose registers go by register number by general knowledge G6 (log 11). That `cur` holds the word
after the step is the spec's decision D21 (R30; log 14). -/
def Obligations.StoresAreSeenByTheNextFetch : Prop :=
  (∀ (i : Instr) (s t u : State) (keys : Vector Bool 16) (rnd : Byte), exec i s = .next t → u.mem = t.mem →
    u.pc.toNat ≤ 4094 → stepWith keys rnd u = onNext (exec (decodeWord (wordAfter i s u.pc.toNat))
      { u with keypad := keys, rnd := rnd, cur := wordAfter i s u.pc.toNat, pc := u.pc + 2 }) ticked) ∧
  (∀ (s t : State) (keys keys' : Vector Bool 16) (rnd rnd' : Byte), stepWith keys rnd s = .next t → t.pc.toNat ≤ 4094 →
    stepWith keys' rnd' t = onNext (exec (decodeWord (wordAfter (instrAtPc s) s t.pc.toNat))
      { t with keypad := keys', rnd := rnd', cur := wordAfter (instrAtPc s) s t.pc.toNat, pc := t.pc + 2 }) ticked)

/-! ## The framebuffer write unit (spec/44_display.md) -/

/-- R135: `CLS` turns every pixel off and changes nothing else; `V[15]` is not written. -/
def Obligations.ClsTurnsEveryPixelOff : Prop :=
  ∀ s : State, ∃ t, exec .cls s = .next t ∧ t = { s with fb := t.fb } ∧ ∀ px py, pixelAt t.fb px py = false

/-- R136: `DRW Vx,Vy,n` whose sprite bytes are all in memory toggles exactly the pixels on the screen that a set sprite bit
covers, writes no register but `V[15]`, and changes nothing else (`mem` and `I` stay). The clipping at both edges and the
bit order are the spec's decision D14 and general knowledge G3 (log 10), the range check D10 (log 8). -/
def Obligations.DrawTogglesTheCoveredPixels : Prop :=
  ∀ (x y : RegIdx) (n : Fin 16) (s : State), (n.val = 0 ∨ s.I.toNat + n.val - 1 ≤ 4095) →
    ∃ t, exec (.drw x y n) s = .next t ∧ t = { s with V := t.V, fb := t.fb } ∧
      (∀ r, r ≠ 15 → t.getV r = s.getV r) ∧
      ∀ px py, (spriteCovers x y n s px py → pixelAt t.fb px py = !pixelAt s.fb px py) ∧
        (¬spriteCovers x y n s px py → pixelAt t.fb px py = pixelAt s.fb px py)

/-- R136: after `DRW`, `V[15]` is 1 if some pixel that was on was turned off, and 0 otherwise; so 0 when `n = 0`. With sprite
bytes above 4095 it raises `AddressOutOfRange` instead (D10, log 8; D14, log 10). -/
def Obligations.DrawReportsTheCollision : Prop :=
  ∀ (x y : RegIdx) (n : Fin 16) (s : State),
    (∀ t, exec (.drw x y n) s = .next t →
      ((∃ px py, pixelAt s.fb px py = true ∧ pixelAt t.fb px py = false) → t.getV 15 = 1) ∧
      (¬(∃ px py, pixelAt s.fb px py = true ∧ pixelAt t.fb px py = false) → t.getV 15 = 0) ∧
      (n.val = 0 → t.fb = s.fb ∧ t.getV 15 = 0)) ∧
    (1 ≤ n.val → 4095 < s.I.toNat + n.val - 1 → exec (.drw x y n) s = .fault .addressOutOfRange)

/-- Drawing is self-inverse: the same sprite drawn again at the same place, with no other write to the framebuffer in
between, restores it, and the second draw reports a collision iff the first turned a pixel on (R137, which derives it from
R136). -/
def Obligations.DrawingTwiceRestores : Prop :=
  ∀ (x y : RegIdx) (n : Fin 16) (s t u : State), exec (.drw x y n) s = .next t →
    u.fb = t.fb → u.mem = s.mem → u.I = s.I → u.getV x = s.getV x → u.getV y = s.getV y →
    ∃ v, exec (.drw x y n) u = .next v ∧ v.fb = s.fb ∧
      (v.getV 15 = 1 ↔ ∃ px py, pixelAt s.fb px py = false ∧ pixelAt t.fb px py = true)

/-! ## Timers and keypad (spec/45_timers_keypad.md, spec/60_exceptions.md R166) -/

/-- R145, R146, R147: `LD Vx,DT` reads the delay timer, `LD DT,Vx` and `LD ST,Vx` write their timer, each changes nothing
else; in a step that fetches one of them the countdown comes after the read, and acts on the value written. -/
def Obligations.TimerReadAndWrites : Prop :=
  ∀ (x : RegIdx) (s : State),
    (∃ t, exec (.ldVxDt x) s = .next t ∧ t.getV x = s.DT ∧ SameButRegisters [x] s t) ∧
    exec (.ldDtVx x) s = .next { s with DT := s.getV x } ∧
    exec (.ldStVx x) s = .next { s with ST := s.getV x } ∧
    (∀ (keys : Vector Bool 16) (rnd : Byte), s.pc.toNat ≤ 4094 →
      (instrAtPc s = .ldVxDt x → ∃ t, stepWith keys rnd s = .next t ∧
        t.getV x = s.DT ∧ t.DT.toNat = s.DT.toNat - 1 ∧ t.ST.toNat = s.ST.toNat - 1) ∧
      (instrAtPc s = .ldDtVx x → ∃ t, stepWith keys rnd s = .next t ∧
        t.DT.toNat = (s.getV x).toNat - 1 ∧ t.ST.toNat = s.ST.toNat - 1) ∧
      (instrAtPc s = .ldStVx x → ∃ t, stepWith keys rnd s = .next t ∧
        t.ST.toNat = (s.getV x).toNat - 1 ∧ t.DT.toNat = s.DT.toNat - 1))

/-- R148 and R149: `SKP Vx` adds 2 to the pc iff key `V[x]` is held, `SKNP Vx` iff it is not, and neither changes anything
else; with `V[x] > 15` both raise `InvalidKeyIndex`, the spec's decision D11 (log 9). -/
def Obligations.KeySkipsTestTheKey : Prop :=
  ∀ (x : RegIdx) (s : State),
    (∀ k : KeyIdx, (s.getV x).toNat = k.val →
      exec (.skp x) s = .next { s with pc := if s.keypad[k.val] = true then s.pc + 2 else s.pc } ∧
      exec (.sknp x) s = .next { s with pc := if s.keypad[k.val] = true then s.pc else s.pc + 2 }) ∧
    (15 < (s.getV x).toNat →
      exec (.skp x) s = .fault .invalidKeyIndex ∧ exec (.sknp x) s = .fault .invalidKeyIndex)

/-- R150: `LD Vx,K` with keys held puts the lowest held key's number in `Vx` and changes nothing else; with none held it
completes too, takes 2 from the pc and changes nothing else, so that the step's net effect on the pc is zero. -/
def Obligations.KeyWaitTakesTheLowestKey : Prop :=
  ∀ (x : RegIdx) (s : State),
    (∀ k : KeyIdx, s.keypad[k.val] = true → (∀ j : KeyIdx, j < k → s.keypad[j.val] = false) →
      ∃ t, exec (.ldVxK x) s = .next t ∧ (t.getV x).toNat = k.val ∧ SameButRegisters [x] s t) ∧
    ((∀ k : KeyIdx, s.keypad[k.val] = false) →
      exec (.ldVxK x) s = .next { s with pc := s.pc - 2 } ∧ ∀ u, s.pc = (fetched u).pc → s.pc - 2 = u.pc)

/-- R27: the keypad is read by `SKP`, `SKNP` and `LD Vx,K` only, and the core never writes it: every other instruction ends
the same way with another key vector, in the same state but for the vector itself, and no instruction changes it. The host
writes all sixteen flags before each step, and before a step that then faults too, which is the spec's decision D28
(log 15). -/
def Obligations.KeypadReachesKeyInstructionsAlone : Prop :=
  (∀ (i : Instr) (s : State) (keys : Vector Bool 16), (∀ x, i ≠ .skp x ∧ i ≠ .sknp x ∧ i ≠ .ldVxK x) →
    exec i { s with keypad := keys } = onNext (exec i s) fun t => { t with keypad := keys }) ∧
  (∀ (i : Instr) (s t : State), exec i s = .next t → t.keypad = s.keypad) ∧
  (∀ (keys : Vector Bool 16) (rnd : Byte) (s : State), (transact (.step keys rnd) s).2.keypad = keys)

/-- R166: each completed step counts both timers down by 1, floor 0, whatever it executes, except that the step of
`LD DT,Vx` or `LD ST,Vx` counts down from the value it wrote to that timer; so a timer rises by those instructions alone. -/
def Obligations.EveryStepCountsTheTimersDown : Prop :=
  ∀ s t : State, step s = .next t →
    (∀ x, instrAtPc s = .ldDtVx x → t.DT.toNat = (s.getV x).toNat - 1) ∧
    ((∀ x, instrAtPc s ≠ .ldDtVx x) → t.DT.toNat = s.DT.toNat - 1) ∧
    (∀ x, instrAtPc s = .ldStVx x → t.ST.toNat = (s.getV x).toNat - 1) ∧
    ((∀ x, instrAtPc s ≠ .ldStVx x) → t.ST.toNat = s.ST.toNat - 1)

/-- The timers count steps: from a state with `DT = d`, after any `n` completed steps none of which writes `DT`, `DT` is
`d - n`, floor 0, whatever the steps' inputs (R167, which derives it from R166). -/
def Obligations.DelayTimerCountsSteps : Prop :=
  ∀ (n : Nat) (s t : State), NoDTWrite n s → Sys2Proof.core.run n s = .next t → t.DT.toNat = s.DT.toNat - n

/-! ## Who writes what (spec/10_state.md R21 to R28 and R33) -/

/-- R28: only `CLS` and `DRW` write the framebuffer. -/
def Obligations.OnlyDisplayInstructionsWriteTheFramebuffer : Prop :=
  ∀ (i : Instr) (s t : State), exec i s = .next t → i ≠ .cls → (∀ x y n, i ≠ .drw x y n) → t.fb = s.fb

/-- R24 and R25: only `CALL` writes the stack, and only in slot `SP`; only `CALL` and `RET` write `SP`. That `RET` leaves the
slot it pops is the spec's decision D22 (log 14). -/
def Obligations.OnlyCallAndRetMoveTheStack : Prop :=
  ∀ (i : Instr) (s t : State), exec i s = .next t →
    ((∀ nnn, i ≠ .call nnn) → t.stack = s.stack) ∧
    (∀ k : Fin 16, k.val ≠ s.SP.val → t.stack[k.val] = s.stack[k.val]) ∧
    ((∀ nnn, i ≠ .call nnn) → i ≠ .ret → t.SP = s.SP)

/-- R23: `I` is written by `LD I,nnn`, `ADD I,Vx` and `LD F,Vx` only. That `LD [I],Vx` and `LD Vx,[I]` leave it is the spec's
decision D15 (R129; log 11). -/
def Obligations.OnlyThreeInstructionsWriteTheIndex : Prop :=
  ∀ (i : Instr) (s t : State), exec i s = .next t →
    (∀ nnn, i ≠ .ldI nnn) → (∀ x, i ≠ .addIVx x) → (∀ x, i ≠ .ldFVx x) → t.I = s.I

/-- R50 and R33: of the instructions, only `LD B,Vx` and `LD [I],Vx` write main memory, and every byte they leave outside
`I` to `I + 2`, or `I` to `I + x`, reads as before. The extents are those of R128, R129 and R130, and that the bound of
`LD [I],Vx` is the register number `x` is general knowledge G6 (log 11). -/
def Obligations.OnlyTwoInstructionsStoreToMemory : Prop :=
  ∀ (i : Instr) (s t : State), exec i s = .next t →
    ((∀ x, i ≠ .ldBVx x) → (∀ x, i ≠ .ldMemVx x) → t.mem = s.mem) ∧
    (∀ x, i = .ldBVx x → SameOutside s t 3) ∧ (∀ x, i = .ldMemVx x → SameOutside s t (x.val + 1))

/-- R21: the instructions that write VF as a side effect are exactly six, and each writes 0 or 1; every other instruction
leaves VF alone unless it names register 15 as its destination. That the flag stays when one of the five arithmetic ones names
register 15 as `Vx` is the spec's decision D12 (R110; log 7). -/
def Obligations.FlagRegisterWriters : Prop :=
  ∀ (i : Instr) (s t : State), exec i s = .next t →
    ((∃ x y n, i = .addVxVy x y ∨ i = .subVxVy x y ∨ i = .subnVxVy x y ∨ i = .shrVx x ∨ i = .shlVx x ∨ i = .drw x y n) →
      t.getV 15 = 0 ∨ t.getV 15 = 1) ∧
    ((∀ x y n, i ≠ .addVxVy x y ∧ i ≠ .subVxVy x y ∧ i ≠ .subnVxVy x y ∧ i ≠ .shrVx x ∧ i ≠ .shlVx x ∧ i ≠ .drw x y n) →
      (∀ kk, i ≠ .ldVxKk 15 kk ∧ i ≠ .addVxKk 15 kk ∧ i ≠ .rnd 15 kk) →
      (∀ y, i ≠ .ldVxVy 15 y ∧ i ≠ .orVxVy 15 y ∧ i ≠ .andVxVy 15 y ∧ i ≠ .xorVxVy 15 y) →
      i ≠ .ldVxDt 15 → i ≠ .ldVxK 15 → i ≠ .ldVxMem 15 → t.getV 15 = s.getV 15)

/-- R26: at the execute phase `DT` is written by `LD DT,Vx` only and `ST` by `LD ST,Vx` only, and no instruction reads `ST`:
with another value of `ST` every instruction but `LD ST,Vx` ends the same way, in the same state but for that value. -/
def Obligations.SoundTimerIsWriteOnly : Prop :=
  (∀ (i : Instr) (s : State) (v : Byte), (∀ x, i ≠ .ldStVx x) →
    exec i { s with ST := v } = onNext (exec i s) fun t => { t with ST := v }) ∧
  (∀ (i : Instr) (s t : State), exec i s = .next t →
    ((∀ x, i ≠ .ldStVx x) → t.ST = s.ST) ∧ ((∀ x, i ≠ .ldDtVx x) → t.DT = s.DT))

/-- R9 and R168: the host reads the framebuffer and the two timers, the reads change nothing, and the sound is on iff
`ST > 0`, which is the spec's name for what the host computes (D27). -/
def Obligations.HostReadsTheOutputs : Prop :=
  ∀ s : State, transact .readFramebuffer s = (.framebuffer s.fb, s) ∧ transact .readTimers s = (.timers s.DT s.ST, s) ∧
    (soundActive s = true ↔ 0 < s.ST.toNat)

/-! ## Safe runs (spec/70_reset_and_hazards.md R183) -/

/-- The premise `NoFault` on a run of steps is the same as the machine's own run completing: with the arguments of `n` steps in
the queue, `n` steps of the machine complete iff the host's `n` steps with those arguments return no fault, and a load that
is refused before them does not count. The names are the spec's decision D1 (log 25), the queue is the model's (log 1). -/
def Obligations.NoFaultOfStepsIsASafeRun : Prop :=
  ∀ (s : State), (SafeRun s.inputs.length s ↔ NoFault (s.inputs.map asStep) s) ∧
    ∀ bytes : List Byte, 3584 < bytes.length →
      (NoFault (.loadProgram bytes :: s.inputs.map asStep) s ↔ NoFault (s.inputs.map asStep) s)
end

