-- ==== Sys2Proof/Laws/Decode.lean ====
section
/-! SUPPORT. The fields of an encoded word, bit by bit and field by field, and the first row of the opcode map that a word
selects, in terms of its fields. -/

namespace Sys2Proof

/-! ## The bits and fields of the three formats -/

theorem getLsbD_encodeA (fam : BitVec 4) (nnn : Addr) (i : Nat) :
    (encodeA fam nnn).getLsbD i = if i < 12 then nnn.getLsbD i else fam.getLsbD (i - 12) :=
  BitVec.getLsbD_append

theorem getLsbD_encodeXK (fam : BitVec 4) (x : RegIdx) (kk : Byte) (i : Nat) :
    (encodeXK fam x kk).getLsbD i =
      if i < 12 then if i < 8 then kk.getLsbD i else (idxNibble x).getLsbD (i - 8) else fam.getLsbD (i - 12) := by
  rw [show (if i < 8 then kk.getLsbD i else (idxNibble x).getLsbD (i - 8)) = (idxNibble x ++ kk).getLsbD i from
    BitVec.getLsbD_append.symm]
  exact BitVec.getLsbD_append

theorem getLsbD_encodeXYN (fam : BitVec 4) (x y : RegIdx) (n : BitVec 4) (i : Nat) :
    (encodeXYN fam x y n).getLsbD i =
      if i < 12 then if i < 8 then if i < 4 then n.getLsbD i else (idxNibble y).getLsbD (i - 4)
        else (idxNibble x).getLsbD (i - 8) else fam.getLsbD (i - 12) := by
  rw [show (if i < 4 then n.getLsbD i else (idxNibble y).getLsbD (i - 4)) = (idxNibble y ++ n).getLsbD i from
    BitVec.getLsbD_append.symm,
    show (if i < 8 then (idxNibble y ++ n).getLsbD i else (idxNibble x).getLsbD (i - 8)) =
      (idxNibble x ++ (idxNibble y ++ n)).getLsbD i from BitVec.getLsbD_append.symm]
  exact BitVec.getLsbD_append

@[simp] theorem nibbleIdx_idxNibble (r : Fin 16) : nibbleIdx (idxNibble r) = r := rfl

@[simp] theorem famOf_encodeA (fam : BitVec 4) (nnn : Addr) : famOf (encodeA fam nnn) = fam := by
  ext i hi
  simp [famOf, getLsbD_encodeA, hi]

@[simp] theorem nnnOf_encodeA (fam : BitVec 4) (nnn : Addr) : nnnOf (encodeA fam nnn) = nnn := by
  ext i hi
  simp [nnnOf, getLsbD_encodeA, hi]

@[simp] theorem lowNibbleOf_encodeA (fam : BitVec 4) (nnn : Addr) :
    lowNibbleOf (encodeA fam nnn) = nnn.extractLsb' 0 4 := by
  ext i hi
  simp [lowNibbleOf, getLsbD_encodeA, show i < 12 by omega]

@[simp] theorem famOf_encodeXK (fam : BitVec 4) (x : RegIdx) (kk : Byte) : famOf (encodeXK fam x kk) = fam := by
  ext i hi
  simp [famOf, getLsbD_encodeXK, hi]

@[simp] theorem kkOf_encodeXK (fam : BitVec 4) (x : RegIdx) (kk : Byte) : kkOf (encodeXK fam x kk) = kk := by
  ext i hi
  simp [kkOf, getLsbD_encodeXK, hi, show i < 12 by omega]

@[simp] theorem xOf_encodeXK (fam : BitVec 4) (x : RegIdx) (kk : Byte) : xOf (encodeXK fam x kk) = x := by
  have h : (encodeXK fam x kk).extractLsb' 8 4 = idxNibble x := by
    ext i hi
    simp [getLsbD_encodeXK, show 8 + i < 12 by omega, BitVec.getLsbD_eq_getElem hi]
  rw [xOf, h, nibbleIdx_idxNibble]

@[simp] theorem famOf_encodeXYN (fam : BitVec 4) (x y : RegIdx) (n : BitVec 4) : famOf (encodeXYN fam x y n) = fam := by
  ext i hi
  simp [famOf, getLsbD_encodeXYN, hi]

@[simp] theorem lowNibbleOf_encodeXYN (fam : BitVec 4) (x y : RegIdx) (n : BitVec 4) :
    lowNibbleOf (encodeXYN fam x y n) = n := by
  ext i hi
  simp [lowNibbleOf, getLsbD_encodeXYN, hi, show i < 8 by omega, show i < 12 by omega]

@[simp] theorem xOf_encodeXYN (fam : BitVec 4) (x y : RegIdx) (n : BitVec 4) : xOf (encodeXYN fam x y n) = x := by
  have h : (encodeXYN fam x y n).extractLsb' 8 4 = idxNibble x := by
    ext i hi
    simp [getLsbD_encodeXYN, show 8 + i < 12 by omega, BitVec.getLsbD_eq_getElem hi]
  rw [xOf, h, nibbleIdx_idxNibble]

@[simp] theorem yOf_encodeXYN (fam : BitVec 4) (x y : RegIdx) (n : BitVec 4) : yOf (encodeXYN fam x y n) = y := by
  have h : (encodeXYN fam x y n).extractLsb' 4 4 = idxNibble y := by
    ext i hi
    simp [getLsbD_encodeXYN, show 4 + i < 12 by omega, show 4 + i < 8 by omega, BitVec.getLsbD_eq_getElem hi]
  rw [yOf, h, nibbleIdx_idxNibble]

@[simp] theorem nOf_encodeXYN (fam : BitVec 4) (x y : RegIdx) (n : Fin 16) : nOf (encodeXYN fam x y (idxNibble n)) = n := by
  rw [nOf, lowNibbleOf_encodeXYN, nibbleIdx_idxNibble]

/-! ## A word is made of its fields -/

theorem Word.eq_of_bits (v w : Word) (h : ∀ i : Fin 16, v.getLsbD i.val = w.getLsbD i.val) : v = w :=
  BitVec.eq_of_getLsbD_eq fun i hi => h ⟨i, hi⟩

theorem idxNibble_nibbleIdx (b : BitVec 4) : idxNibble (nibbleIdx b) = b := rfl

theorem encodeA_fields (w : Word) : encodeA (famOf w) (nnnOf w) = w := by
  refine Word.eq_of_bits _ _ fun i => ?_
  rw [getLsbD_encodeA]
  fin_cases i <;> simp [famOf, nnnOf]

theorem encodeXK_fields (w : Word) : encodeXK (famOf w) (xOf w) (kkOf w) = w := by
  refine Word.eq_of_bits _ _ fun i => ?_
  rw [getLsbD_encodeXK, xOf, idxNibble_nibbleIdx]
  fin_cases i <;> simp [famOf, kkOf]

theorem encodeXYN_fields (w : Word) : encodeXYN (famOf w) (xOf w) (yOf w) (lowNibbleOf w) = w := by
  refine Word.eq_of_bits _ _ fun i => ?_
  rw [getLsbD_encodeXYN, xOf, yOf, idxNibble_nibbleIdx, idxNibble_nibbleIdx]
  fin_cases i <;> simp [famOf, lowNibbleOf]

/-- A 4-bit field has sixteen values. -/
theorem nibble_cases (b : BitVec 4) : b = 0x0 ∨ b = 0x1 ∨ b = 0x2 ∨ b = 0x3 ∨ b = 0x4 ∨ b = 0x5 ∨ b = 0x6 ∨ b = 0x7 ∨
    b = 0x8 ∨ b = 0x9 ∨ b = 0xA ∨ b = 0xB ∨ b = 0xC ∨ b = 0xD ∨ b = 0xE ∨ b = 0xF := by
  bv_omega

/-- The two bytes of a word, put together again as the fetch does (R51). -/
theorem wordOfBytes_bytesOfWord (w : Word) : wordOfBytes (w.extractLsb' 8 8) (w.extractLsb' 0 8) = w := by
  refine Word.eq_of_bits _ _ fun i => ?_
  have h : (wordOfBytes (w.extractLsb' 8 8) (w.extractLsb' 0 8)).getLsbD i.val = _ := BitVec.getLsbD_append
  rw [h]
  fin_cases i <;> simp

theorem decode_bytesOfWord (w : Word) (rest : List Byte) : decode (bytesOfWord w ++ rest) = .ok (decodeWord w, rest) := by
  simp [decode, bytesOfWord, wordOfBytes_bytesOfWord]

/-! ## What a row's mask leaves of a word -/

theorem and_mask_family (w : Word) : w &&& 0xF000 = encodeA (famOf w) 0 := by
  refine Word.eq_of_bits _ _ fun i => ?_
  rw [getLsbD_encodeA]
  fin_cases i <;> simp [famOf]

theorem and_mask_nibble (w : Word) : w &&& 0xF00F = encodeXYN (famOf w) 0 0 (lowNibbleOf w) := by
  refine Word.eq_of_bits _ _ fun i => ?_
  rw [getLsbD_encodeXYN]
  fin_cases i <;> simp [famOf, lowNibbleOf, idxNibble]

theorem and_mask_byte (w : Word) : w &&& 0xF0FF = encodeXK (famOf w) 0 (kkOf w) := by
  refine Word.eq_of_bits _ _ fun i => ?_
  rw [getLsbD_encodeXK]
  fin_cases i <;> simp [famOf, kkOf, idxNibble]

/-- A row with mask 0xF000 looks at the family alone. -/
theorem selects_family (w : Word) (f : BitVec 4) : (w &&& 0xF000 == encodeA f 0) = decide (famOf w = f) := by
  rw [and_mask_family, Bool.eq_iff_iff, beq_iff_eq, decide_eq_true_iff]
  exact ⟨fun h => by simpa using congrArg famOf h, fun h => by rw [h]⟩

/-- A row with mask 0xF00F looks at the family and the low nibble. -/
theorem selects_nibble (w : Word) (f n : BitVec 4) :
    (w &&& 0xF00F == encodeXYN f 0 0 n) = decide (famOf w = f ∧ lowNibbleOf w = n) := by
  rw [and_mask_nibble, Bool.eq_iff_iff, beq_iff_eq, decide_eq_true_iff]
  exact ⟨fun h => ⟨by simpa using congrArg famOf h, by simpa using congrArg lowNibbleOf h⟩, fun h => by rw [h.1, h.2]⟩

/-- A row with mask 0xF0FF looks at the family and the low byte. -/
theorem selects_byte (w : Word) (f : BitVec 4) (k : Byte) :
    (w &&& 0xF0FF == encodeXK f 0 k) = decide (famOf w = f ∧ kkOf w = k) := by
  rw [and_mask_byte, Bool.eq_iff_iff, beq_iff_eq, decide_eq_true_iff]
  exact ⟨fun h => ⟨by simpa using congrArg famOf h, by simpa using congrArg kkOf h⟩, fun h => by rw [h.1, h.2]⟩

/-! ## The first row a word selects -/

/-! The conditions of the rows on the fields of a word, in the rows' order (R74, R76). -/

def directConditions (w : Word) : List Bool :=
  [decide (famOf w = 0x0#4 ∧ lowNibbleOf w = 0x0#4),
   decide (famOf w = 0x0#4 ∧ lowNibbleOf w = 0xE#4),
   decide (famOf w = 0x0#4),
   decide (famOf w = 0x1#4),
   decide (famOf w = 0x2#4),
   decide (famOf w = 0x3#4),
   decide (famOf w = 0x4#4),
   decide (famOf w = 0x5#4),
   decide (famOf w = 0x6#4),
   decide (famOf w = 0x7#4)]

def family8Conditions (w : Word) : List Bool :=
  [decide (famOf w = 0x8#4 ∧ lowNibbleOf w = 0x0#4),
   decide (famOf w = 0x8#4 ∧ lowNibbleOf w = 0x1#4),
   decide (famOf w = 0x8#4 ∧ lowNibbleOf w = 0x2#4),
   decide (famOf w = 0x8#4 ∧ lowNibbleOf w = 0x3#4),
   decide (famOf w = 0x8#4 ∧ lowNibbleOf w = 0x4#4),
   decide (famOf w = 0x8#4 ∧ lowNibbleOf w = 0x5#4),
   decide (famOf w = 0x8#4 ∧ lowNibbleOf w = 0x6#4),
   decide (famOf w = 0x8#4 ∧ lowNibbleOf w = 0x7#4),
   decide (famOf w = 0x8#4 ∧ lowNibbleOf w = 0xE#4)]

def upperConditions (w : Word) : List Bool :=
  [decide (famOf w = 0x9#4),
   decide (famOf w = 0xA#4),
   decide (famOf w = 0xB#4),
   decide (famOf w = 0xC#4),
   decide (famOf w = 0xD#4),
   decide (famOf w = 0xE#4 ∧ kkOf w = 0x9E#8),
   decide (famOf w = 0xE#4 ∧ kkOf w = 0xA1#8)]

def familyFConditions (w : Word) : List Bool :=
  [decide (famOf w = 0xF#4 ∧ kkOf w = 0x07#8),
   decide (famOf w = 0xF#4 ∧ kkOf w = 0x0A#8),
   decide (famOf w = 0xF#4 ∧ kkOf w = 0x15#8),
   decide (famOf w = 0xF#4 ∧ kkOf w = 0x18#8),
   decide (famOf w = 0xF#4 ∧ kkOf w = 0x1E#8),
   decide (famOf w = 0xF#4 ∧ kkOf w = 0x29#8),
   decide (famOf w = 0xF#4 ∧ kkOf w = 0x33#8),
   decide (famOf w = 0xF#4 ∧ kkOf w = 0x55#8),
   decide (famOf w = 0xF#4 ∧ kkOf w = 0x65#8)]

def reservedConditions (w : Word) : List Bool :=
  [decide (famOf w = 0x8#4),
   decide (famOf w = 0xE#4),
   decide (famOf w = 0xF#4)]

def rowConditions (w : Word) : List Bool :=
  directConditions w ++ family8Conditions w ++ upperConditions w ++ familyFConditions w ++ reservedConditions w

theorem selects_opcodeRowsDirect (w : Word) : opcodeRowsDirect.map (fun r => r.selects w) = directConditions w :=
  congrArg₂ List.cons (selects_nibble w 0x0 0x0) <|
  congrArg₂ List.cons (selects_nibble w 0x0 0xE) <|
  congrArg₂ List.cons (selects_family w 0x0) <|
  congrArg₂ List.cons (selects_family w 0x1) <|
  congrArg₂ List.cons (selects_family w 0x2) <|
  congrArg₂ List.cons (selects_family w 0x3) <|
  congrArg₂ List.cons (selects_family w 0x4) <|
  congrArg₂ List.cons (selects_family w 0x5) <|
  congrArg₂ List.cons (selects_family w 0x6) <|
  congrArg₂ List.cons (selects_family w 0x7) rfl

theorem selects_opcodeRowsFamily8 (w : Word) : opcodeRowsFamily8.map (fun r => r.selects w) = family8Conditions w :=
  congrArg₂ List.cons (selects_nibble w 0x8 0x0) <|
  congrArg₂ List.cons (selects_nibble w 0x8 0x1) <|
  congrArg₂ List.cons (selects_nibble w 0x8 0x2) <|
  congrArg₂ List.cons (selects_nibble w 0x8 0x3) <|
  congrArg₂ List.cons (selects_nibble w 0x8 0x4) <|
  congrArg₂ List.cons (selects_nibble w 0x8 0x5) <|
  congrArg₂ List.cons (selects_nibble w 0x8 0x6) <|
  congrArg₂ List.cons (selects_nibble w 0x8 0x7) <|
  congrArg₂ List.cons (selects_nibble w 0x8 0xE) rfl

theorem selects_opcodeRowsUpper (w : Word) : opcodeRowsUpper.map (fun r => r.selects w) = upperConditions w :=
  congrArg₂ List.cons (selects_family w 0x9) <|
  congrArg₂ List.cons (selects_family w 0xA) <|
  congrArg₂ List.cons (selects_family w 0xB) <|
  congrArg₂ List.cons (selects_family w 0xC) <|
  congrArg₂ List.cons (selects_family w 0xD) <|
  congrArg₂ List.cons (selects_byte w 0xE 0x9E) <|
  congrArg₂ List.cons (selects_byte w 0xE 0xA1) rfl

theorem selects_opcodeRowsFamilyF (w : Word) : opcodeRowsFamilyF.map (fun r => r.selects w) = familyFConditions w :=
  congrArg₂ List.cons (selects_byte w 0xF 0x07) <|
  congrArg₂ List.cons (selects_byte w 0xF 0x0A) <|
  congrArg₂ List.cons (selects_byte w 0xF 0x15) <|
  congrArg₂ List.cons (selects_byte w 0xF 0x18) <|
  congrArg₂ List.cons (selects_byte w 0xF 0x1E) <|
  congrArg₂ List.cons (selects_byte w 0xF 0x29) <|
  congrArg₂ List.cons (selects_byte w 0xF 0x33) <|
  congrArg₂ List.cons (selects_byte w 0xF 0x55) <|
  congrArg₂ List.cons (selects_byte w 0xF 0x65) rfl

theorem selects_opcodeRowsReserved (w : Word) : opcodeRowsReserved.map (fun r => r.selects w) = reservedConditions w :=
  congrArg₂ List.cons (selects_family w 0x8) <|
  congrArg₂ List.cons (selects_family w 0xE) <|
  congrArg₂ List.cons (selects_family w 0xF) rfl

/-- Row by row, what a word must hold to select it. -/
theorem selects_opcodeRows (w : Word) : opcodeRows.map (fun r => r.selects w) = rowConditions w := by
  simp only [opcodeRows, List.map_append, selects_opcodeRowsDirect, selects_opcodeRowsFamily8, selects_opcodeRowsUpper,
    selects_opcodeRowsFamilyF, selects_opcodeRowsReserved, rowConditions]

theorem firstRowOf_eq (w : Word) : firstRowOf w = (rowConditions w).findIdx id := by
  rw [← selects_opcodeRows, List.findIdx_map]
  rfl

end Sys2Proof
end

