-- ==== Sys2Proof/Laws/Display.lean ====
section
/-! SUPPORT. What drawing does, pixel by pixel: the loops of R136 against a formula for one pixel and one for the
collision (spec/44_display.md R136, R138). -/

namespace Sys2Proof.Machine

/-- Two framebuffers with the same pixels are the same. -/
theorem fb_ext (f g : Vector Bool 2048) (h : ∀ qx qy, pixelAt f qx qy = pixelAt g qx qy) : f = g := by
  refine Vector.ext fun i hi => ?_
  have hx : i % 64 < 64 := Nat.mod_lt _ (by omega)
  have hy : i / 64 < 32 := by omega
  have hpix := h ⟨i % 64, hx⟩ ⟨i / 64, hy⟩
  have hidx : i / 64 * 64 + i % 64 = i := Nat.div_add_mod' i 64
  simpa only [pixelAt, hidx] using hpix

@[simp] theorem pixelAt_clear (qx : Fin 64) (qy : Fin 32) : pixelAt (Vector.replicate 2048 false) qx qy = false := by
  simp [pixelAt]

/-! ## One pixel -/

theorem pixelAt_drawPixel (px py : Nat) (bit : Bool) (c : Canvas) (qx : Fin 64) (qy : Fin 32) :
    pixelAt (drawPixel px py bit c).fb qx qy = (pixelAt c.fb qx qy ^^ (bit && decide (px = qx.val ∧ py = qy.val))) := by
  unfold drawPixel
  split
  · next h =>
    cases bit with
    | false => simp
    | true =>
      by_cases hq : px = qx.val ∧ py = qy.val
      · simp [pixelAt, hq.1, hq.2]
      · have hne : py * 64 + px ≠ qy.val * 64 + qx.val := by omega
        simp [pixelAt, Vector.getElem_set_ne _ _ hne, hq]
  · next h =>
    have hq : ¬(px = qx.val ∧ py = qy.val) := by omega
    simp [hq]

theorem drawPixel_hit (px py : Nat) (bit : Bool) (c : Canvas) :
    (drawPixel px py bit c).hit = true ↔
      c.hit = true ∨ bit = true ∧ ∃ qx : Fin 64, ∃ qy : Fin 32, px = qx.val ∧ py = qy.val ∧ pixelAt c.fb qx qy = true := by
  unfold drawPixel
  split
  · next h =>
    cases bit with
    | false => simp
    | true =>
      simp only [if_true, Bool.or_eq_true, true_and]
      refine or_congr_right ⟨fun hp => ⟨⟨px, by omega⟩, ⟨py, by omega⟩, rfl, rfl, hp⟩, ?_⟩
      rintro ⟨qx, qy, rfl, rfl, hp⟩
      exact hp
  · next h =>
    refine ⟨Or.inl, ?_⟩
    rintro (hc | ⟨-, qx, qy, rfl, rfl, -⟩)
    · exact hc
    · exact absurd ⟨by omega, by omega⟩ h

/-! ## One row -/

/-- The first `k` columns of a row. -/
def drawColumns (x0 py : Nat) (row : Byte) (k : Nat) (c : Canvas) : Canvas :=
  (List.range k).foldl (fun d j => drawPixel (x0 + j) py (row.getLsbD (7 - j)) d) c

theorem drawColumns_succ (x0 py : Nat) (row : Byte) (k : Nat) (c : Canvas) :
    drawColumns x0 py row (k + 1) c = drawPixel (x0 + k) py (row.getLsbD (7 - k)) (drawColumns x0 py row k c) := by
  simp [drawColumns, List.range_succ, List.foldl_append]

theorem pixelAt_drawColumns (x0 py : Nat) (row : Byte) (k : Nat) (c : Canvas) (qx : Fin 64) (qy : Fin 32) :
    pixelAt (drawColumns x0 py row k c).fb qx qy =
      (pixelAt c.fb qx qy ^^
        (decide (py = qy.val ∧ x0 ≤ qx.val ∧ qx.val < x0 + k) && row.getLsbD (7 - (qx.val - x0)))) := by
  induction k with
  | zero =>
    have h : ¬(py = qy.val ∧ x0 ≤ qx.val ∧ qx.val < x0 + 0) := by omega
    simp only [h, drawColumns, List.range_zero, List.foldl_nil, decide_false, Bool.false_and, Bool.xor_false]
  | succ k ih =>
    rw [drawColumns_succ, pixelAt_drawPixel, ih]
    by_cases hk : x0 + k = qx.val ∧ py = qy.val
    · have hy : py = qy.val ∧ x0 ≤ qx.val ∧ qx.val < x0 + (k + 1) := by omega
      have hs : qx.val - x0 = k := by omega
      simp [hy, hs, hk]
    · have hiff : (py = qy.val ∧ x0 ≤ qx.val ∧ qx.val < x0 + (k + 1)) ↔ (py = qy.val ∧ x0 ≤ qx.val ∧ qx.val < x0 + k) := by
        omega
      simp only [hiff, hk, decide_false, Bool.and_false, Bool.xor_false]

theorem drawColumns_hit (x0 py : Nat) (row : Byte) (k : Nat) (c : Canvas) :
    (drawColumns x0 py row k c).hit = true ↔
      c.hit = true ∨ ∃ qx : Fin 64, ∃ qy : Fin 32, py = qy.val ∧ x0 ≤ qx.val ∧ qx.val < x0 + k ∧
        row.getLsbD (7 - (qx.val - x0)) = true ∧ pixelAt c.fb qx qy = true := by
  induction k with
  | zero =>
    refine ⟨Or.inl, ?_⟩
    rintro (h | ⟨qx, qy, -, h1, h2, -⟩)
    · exact h
    · omega
  | succ k ih =>
    rw [drawColumns_succ, drawPixel_hit, ih]
    constructor
    · rintro ((h | ⟨qx, qy, h1, h2, h3, h4, h5⟩) | ⟨hb, qx, qy, h1, h2, h3⟩)
      · exact Or.inl h
      · exact Or.inr ⟨qx, qy, h1, h2, by omega, h4, h5⟩
      · refine Or.inr ⟨qx, qy, h2, by omega, by omega, ?_, ?_⟩
        · rwa [show qx.val - x0 = k by omega]
        · rw [pixelAt_drawColumns] at h3
          have hn : ¬(py = qy.val ∧ x0 ≤ qx.val ∧ qx.val < x0 + k) := by omega
          simpa only [hn, decide_false, Bool.false_and, Bool.xor_false] using h3
    · rintro (h | ⟨qx, qy, h1, h2, h3, h4, h5⟩)
      · exact Or.inl (Or.inl h)
      · by_cases hk : x0 + k = qx.val
        · refine Or.inr ⟨?_, qx, qy, hk, h1, ?_⟩
          · rwa [show qx.val - x0 = k by omega] at h4
          · rw [pixelAt_drawColumns]
            have hn : ¬(py = qy.val ∧ x0 ≤ qx.val ∧ qx.val < x0 + k) := by omega
            simpa only [hn, decide_false, Bool.false_and, Bool.xor_false] using h5
        · exact Or.inl (Or.inr ⟨qx, qy, h1, h2, by omega, h4, h5⟩)

theorem drawRow_eq (x0 py : Nat) (row : Byte) (c : Canvas) : drawRow x0 py row c = drawColumns x0 py row 8 c := rfl

/-! ## The whole sprite -/

/-- Whether the sprite has a set bit over the pixel at column `px`, row `py` (R138). -/
def spriteBit (x0 y0 : Nat) (rows : List Byte) (px py : Nat) : Bool :=
  decide (y0 ≤ py ∧ py < y0 + rows.length ∧ x0 ≤ px ∧ px < x0 + 8) && (rows.getD (py - y0) 0).getLsbD (7 - (px - x0))

theorem spriteBit_cons (x0 y0 : Nat) (row : Byte) (rest : List Byte) (px py : Nat) :
    spriteBit x0 y0 (row :: rest) px py =
      if py = y0 then decide (x0 ≤ px ∧ px < x0 + 8) && row.getLsbD (7 - (px - x0))
      else spriteBit x0 (y0 + 1) rest px py := by
  unfold spriteBit
  by_cases hy : py = y0
  · subst hy
    simp
  · rw [if_neg hy]
    by_cases hlt : y0 < py
    · have hs : py - y0 = (py - (y0 + 1)) + 1 := by omega
      have hiff : (y0 ≤ py ∧ py < y0 + (row :: rest).length ∧ x0 ≤ px ∧ px < x0 + 8) ↔
          (y0 + 1 ≤ py ∧ py < y0 + 1 + rest.length ∧ x0 ≤ px ∧ px < x0 + 8) := by
        rw [List.length_cons]
        omega
      simp only [hiff, hs, List.getD_cons_succ]
    · have h1 : ¬(y0 ≤ py ∧ py < y0 + (row :: rest).length ∧ x0 ≤ px ∧ px < x0 + 8) := by omega
      have h2 : ¬(y0 + 1 ≤ py ∧ py < y0 + 1 + rest.length ∧ x0 ≤ px ∧ px < x0 + 8) := by omega
      simp only [h1, h2, decide_false, Bool.false_and]

/-- Each pixel is XORed with the sprite's bit over it (R136). -/
theorem pixelAt_drawRows (x0 y0 : Nat) (rows : List Byte) (c : Canvas) (qx : Fin 64) (qy : Fin 32) :
    pixelAt (drawRows x0 y0 rows c).fb qx qy = (pixelAt c.fb qx qy ^^ spriteBit x0 y0 rows qx.val qy.val) := by
  induction rows generalizing y0 c with
  | nil =>
    have h : ¬(y0 ≤ qy.val ∧ qy.val < y0 + ([] : List Byte).length ∧ x0 ≤ qx.val ∧ qx.val < x0 + 8) := by
      rw [List.length_nil]
      omega
    simp only [drawRows, spriteBit, h, decide_false, Bool.false_and, Bool.xor_false]
  | cons row rest ih =>
    rw [drawRows, ih, drawRow_eq, pixelAt_drawColumns, spriteBit_cons]
    by_cases hy : qy.val = y0
    · subst hy
      have h2 : ¬(qy.val + 1 ≤ qy.val ∧ qy.val < qy.val + 1 + rest.length ∧ x0 ≤ qx.val ∧ qx.val < x0 + 8) := by omega
      simp only [spriteBit, h2, decide_false, Bool.false_and, Bool.xor_false, if_true, true_and]
    · have h1 : ¬(y0 = qy.val ∧ x0 ≤ qx.val ∧ qx.val < x0 + 8) := by omega
      simp only [h1, if_neg hy, decide_false, Bool.false_and, Bool.xor_false]

/-- A collision: some pixel that was on lies under a set sprite bit (R136). -/
theorem drawRows_hit (x0 y0 : Nat) (rows : List Byte) (c : Canvas) :
    (drawRows x0 y0 rows c).hit = true ↔
      c.hit = true ∨ ∃ qx : Fin 64, ∃ qy : Fin 32, spriteBit x0 y0 rows qx.val qy.val = true ∧ pixelAt c.fb qx qy = true := by
  induction rows generalizing y0 c with
  | nil =>
    refine ⟨Or.inl, ?_⟩
    rintro (h | ⟨qx, qy, hb, -⟩)
    · exact h
    · simp only [spriteBit, Bool.and_eq_true, decide_eq_true_eq, List.length_nil] at hb
      omega
  | cons row rest ih =>
    rw [drawRows, ih, drawRow_eq, drawColumns_hit]
    constructor
    · rintro ((h | ⟨qx, qy, h1, h2, h3, h4, h5⟩) | ⟨qx, qy, hb, hp⟩)
      · exact Or.inl h
      · refine Or.inr ⟨qx, qy, ?_, h5⟩
        rw [spriteBit_cons, if_pos h1.symm]
        simp [h2, h3, h4]
      · refine Or.inr ⟨qx, qy, ?_, ?_⟩
        · rw [spriteBit_cons, if_neg ?_]
          · exact hb
          · simp only [spriteBit, Bool.and_eq_true, decide_eq_true_eq] at hb
            omega
        · rw [pixelAt_drawColumns] at hp
          have hn : ¬(y0 = qy.val ∧ x0 ≤ qx.val ∧ qx.val < x0 + 8) := by
            simp only [spriteBit, Bool.and_eq_true, decide_eq_true_eq] at hb
            omega
          simpa only [hn, decide_false, Bool.false_and, Bool.xor_false] using hp
    · rintro (h | ⟨qx, qy, hb, hp⟩)
      · exact Or.inl (Or.inl h)
      · rw [spriteBit_cons] at hb
        by_cases hy : qy.val = y0
        · rw [if_pos hy] at hb
          simp only [Bool.and_eq_true, decide_eq_true_eq] at hb
          exact Or.inl (Or.inr ⟨qx, qy, hy.symm, hb.1.1, hb.1.2, hb.2, hp⟩)
        · rw [if_neg hy] at hb
          refine Or.inr ⟨qx, qy, hb, ?_⟩
          rw [pixelAt_drawColumns]
          have hn : ¬(y0 = qy.val ∧ x0 ≤ qx.val ∧ qx.val < x0 + 8) := by omega
          simpa only [hn, decide_false, Bool.false_and, Bool.xor_false] using hp

/-- The framebuffer a sprite leaves does not depend on the collision so far. -/
theorem drawRows_fb_hit (x0 y0 : Nat) (rows : List Byte) (fb : Vector Bool 2048) (h h' : Bool) :
    (drawRows x0 y0 rows ⟨fb, h⟩).fb = (drawRows x0 y0 rows ⟨fb, h'⟩).fb :=
  fb_ext _ _ fun qx qy => by rw [pixelAt_drawRows, pixelAt_drawRows]

end Sys2Proof.Machine
end

