-- ==== Sys2Proof/Laws/Memory.lean ====
section
/-! SUPPORT. Memory: a read after a write gives the value written, a write leaves every other address alone, and every
operation keeps the canonical form. -/

namespace Sys2Proof.Machine

/-! ## What an unlisted address reads as (R29, R180) -/

theorem resetByte_font (i : Nat) (h : i < 80) : resetByte (0x050 + i) = fontTable.getD i 0 := by
  have hin : fontBase ≤ 0x050 + i ∧ 0x050 + i < fontBase + fontSize := by
    unfold fontBase fontSize
    omega
  rw [resetByte, if_pos hin, fontBase, Nat.add_sub_cancel_left]

theorem resetByte_plain (a : Nat) (h : a < 0x050 ∨ 0x0A0 ≤ a) : resetByte a = 0 := by
  have hout : ¬(fontBase ≤ a ∧ a < fontBase + fontSize) := by
    unfold fontBase fontSize
    omega
  rw [resetByte, if_neg hout]

/-! ## Reads and writes -/

theorem Memory.read_without_same (m : Memory) (a : Nat) : (m.without a).read a = resetByte a := by
  induction m with
  | nil => rfl
  | cons c cs ih =>
    by_cases h : c.1 = a
    · simpa [Memory.without, h] using ih
    · simpa [Memory.without, h, Memory.read] using ih

theorem Memory.read_without_ne (m : Memory) (a b : Nat) (hb : b ≠ a) : (m.without a).read b = m.read b := by
  induction m with
  | nil => rfl
  | cons c cs ih =>
    by_cases h : c.1 = a
    · have hc : c.1 ≠ b := fun hcb => hb (hcb.symm.trans h)
      have hd : Memory.without (c :: cs) a = Memory.without cs a := by simp [Memory.without, h]
      rw [hd, ih, Memory.read, if_neg hc]
    · have hd : Memory.without (c :: cs) a = c :: Memory.without cs a := by simp [Memory.without, h]
      rw [hd, Memory.read, Memory.read, ih]

theorem Memory.read_place_ne (m : Memory) (a b : Nat) (v : Byte) (hb : b ≠ a) : (m.place a v).read b = m.read b := by
  induction m with
  | nil => simp [Memory.place, Memory.read, Ne.symm hb]
  | cons c cs ih =>
    unfold Memory.place
    split
    · rw [Memory.read, if_neg (Ne.symm hb)]
    · rw [Memory.read, Memory.read, ih]

theorem Memory.read_place_same (m : Memory) (a : Nat) (v : Byte) (h : ∀ c ∈ m, c.1 ≠ a) : (m.place a v).read a = v := by
  induction m with
  | nil => simp [Memory.place, Memory.read]
  | cons c cs ih =>
    unfold Memory.place
    split
    · simp [Memory.read]
    · rw [Memory.read, if_neg (h c (by simp)), ih fun d hd => h d (by simp [hd])]

theorem Memory.mem_without (m : Memory) (a : Nat) (c : Host.Cell) : c ∈ m.without a ↔ c ∈ m ∧ c.1 ≠ a := by
  simp [Memory.without]

/-- What every address reads as after a write (R57(c)), in any memory, canonical or not. -/
theorem Memory.read_write (m : Memory) (a b : Nat) (v : Byte) :
    (m.write a v).read b = if b = a then v else m.read b := by
  unfold Memory.write
  by_cases hb : b = a
  · subst hb
    rw [if_pos rfl]
    split
    · next hv => rw [Memory.read_without_same, hv]
    · exact Memory.read_place_same _ _ _ fun c hc => ((Memory.mem_without m b c).1 hc).2
  · rw [if_neg hb]
    split
    · exact Memory.read_without_ne m a b hb
    · rw [Memory.read_place_ne _ _ _ _ hb, Memory.read_without_ne m a b hb]

/-- What every address reads as after a block write. -/
theorem Memory.read_writeBytes (m : Memory) (a b : Nat) (bytes : List Byte) :
    (m.writeBytes a bytes).read b =
      if a ≤ b ∧ b < a + bytes.length then bytes.getD (b - a) 0 else m.read b := by
  induction bytes generalizing m a with
  | nil =>
    simp only [Memory.writeBytes, List.length_nil]
    rw [if_neg (by omega)]
  | cons v vs ih =>
    simp only [Memory.writeBytes, ih, Memory.read_write, List.length_cons]
    by_cases hba : b = a
    · subst hba
      rw [if_neg (by omega), if_pos rfl, if_pos (by omega)]
      simp
    · by_cases hin : a + 1 ≤ b ∧ b < a + 1 + vs.length
      · rw [if_pos hin, if_pos (by omega)]
        have : b - a = (b - (a + 1)) + 1 := by omega
        rw [this, List.getD_cons_succ]
      · rw [if_neg hin, if_neg hba, if_neg (by omega)]

/-- A block write leaves every address outside the block alone. -/
theorem Memory.read_writeBytes_outside (m : Memory) (a b : Nat) (bytes : List Byte)
    (h : b < a ∨ a + bytes.length ≤ b) : (m.writeBytes a bytes).read b = m.read b := by
  rw [Memory.read_writeBytes, if_neg (by omega)]

theorem Memory.length_readBytes (m : Memory) (a n : Nat) : (m.readBytes a n).length = n := by
  induction n generalizing a with
  | zero => rfl
  | succ k ih => simp [Memory.readBytes, ih]

theorem Memory.getD_readBytes (m : Memory) (a n k : Nat) (h : k < n) : (m.readBytes a n).getD k 0 = m.read (a + k) := by
  induction n generalizing a k with
  | zero => omega
  | succ j ih =>
    cases k with
    | zero => simp [Memory.readBytes]
    | succ i =>
      simp only [Memory.readBytes, List.getD_cons_succ]
      rw [ih (a + 1) i (by omega)]
      congr 1
      omega

/-! ## The canonical form -/

theorem Memory.mem_place (m : Memory) (a : Nat) (v : Byte) (c : Host.Cell) :
    c ∈ m.place a v ↔ c = (a, v) ∨ c ∈ m := by
  induction m with
  | nil => simp [Memory.place]
  | cons d ds ih =>
    unfold Memory.place
    split
    · simp
    · simp only [List.mem_cons, ih]
      tauto

theorem Memory.sorted_place (m : Memory) (a : Nat) (v : Byte) (h : m.Pairwise fun c d => c.1 < d.1)
    (ha : ∀ c ∈ m, c.1 ≠ a) : (m.place a v).Pairwise fun c d => c.1 < d.1 := by
  induction m with
  | nil => simp [Memory.place]
  | cons c cs ih =>
    have hc := List.pairwise_cons.1 h
    unfold Memory.place
    split
    · next hlt =>
      refine List.pairwise_cons.2 ⟨fun d hd => ?_, h⟩
      rcases List.mem_cons.1 hd with rfl | hd
      · exact hlt
      · exact Nat.lt_trans hlt (hc.1 d hd)
    · next hge =>
      have hca : c.1 < a := by
        have := ha c (by simp)
        omega
      refine List.pairwise_cons.2 ⟨fun d hd => ?_, ih hc.2 fun d hd => ha d (by simp [hd])⟩
      rcases (Memory.mem_place cs a v d).1 hd with rfl | hd
      · exact hca
      · exact hc.1 d hd

theorem Memory.without_wf (m : Memory) (a : Nat) (h : m.wf) : (m.without a).wf :=
  ⟨h.1.filter _, fun c hc => h.2 c ((Memory.mem_without m a c).1 hc).1⟩

/-- Every write to an address in memory keeps the canonical form. -/
theorem Memory.write_wf (m : Memory) (a : Nat) (v : Byte) (h : m.wf) (ha : a < Config.memSize) : (m.write a v).wf := by
  unfold Memory.write
  split
  · exact Memory.without_wf m a h
  · next hv =>
    have hd := Memory.without_wf m a h
    refine ⟨Memory.sorted_place _ _ _ hd.1 fun c hc => ((Memory.mem_without m a c).1 hc).2, fun c hc => ?_⟩
    rcases (Memory.mem_place _ a v c).1 hc with rfl | hc
    · exact ⟨ha, hv⟩
    · exact hd.2 c hc

/-- Every block write inside memory keeps the canonical form. -/
theorem Memory.writeBytes_wf (m : Memory) (a : Nat) (bytes : List Byte) (h : m.wf)
    (ha : bytes = [] ∨ a + bytes.length ≤ Config.memSize) : (m.writeBytes a bytes).wf := by
  induction bytes generalizing m a with
  | nil => exact h
  | cons b bs ih =>
    simp only [List.length_cons, reduceCtorEq, false_or] at ha
    exact ih _ _ (Memory.write_wf m a b h (by omega)) (Or.inr (by omega))

theorem Memory.nil_wf : Memory.wf [] := ⟨List.Pairwise.nil, by simp⟩

/-- In canonical form, the list is determined by what it reads as: equal memories are equal data. -/
theorem Memory.eq_of_read_eq (m n : Memory) (hm : m.wf) (hn : n.wf) (h : ∀ a, m.read a = n.read a) : m = n := by
  have read_below : ∀ (k : Memory) (a : Nat), (∀ c ∈ k, a < c.1) → k.read a = resetByte a := by
    intro k a hk
    induction k with
    | nil => rfl
    | cons c cs ih =>
      have := hk c (by simp)
      rw [Memory.read, if_neg (by omega), ih fun d hd => hk d (by simp [hd])]
  have tail_wf : ∀ (c : Host.Cell) (cs : Memory), Memory.wf (c :: cs) → Memory.wf cs := fun c cs hw =>
    ⟨(List.pairwise_cons.1 hw.1).2, fun d hd => hw.2 d (by simp [hd])⟩
  induction m generalizing n with
  | nil =>
    cases n with
    | nil => rfl
    | cons c cs =>
      exact absurd (by simpa [Memory.read] using (h c.1).symm) (hn.2 c (by simp)).2
  | cons c cs ih =>
    cases n with
    | nil => exact absurd (by simpa [Memory.read] using h c.1) (hm.2 c (by simp)).2
    | cons d ds =>
      have hcs := (List.pairwise_cons.1 hm.1).1
      have hds := (List.pairwise_cons.1 hn.1).1
      have hcd : c.1 = d.1 := by
        rcases Nat.lt_trichotomy c.1 d.1 with hlt | heq | hgt
        · have hr := h c.1
          rw [Memory.read, if_pos rfl,
            read_below (d :: ds) c.1 fun e he => by
              rcases List.mem_cons.1 he with rfl | he
              · exact hlt
              · exact Nat.lt_trans hlt (hds e he)] at hr
          exact absurd hr (hm.2 c (by simp)).2
        · exact heq
        · have hr := h d.1
          rw [read_below (c :: cs) d.1 fun e he => by
              rcases List.mem_cons.1 he with rfl | he
              · exact hgt
              · exact Nat.lt_trans hgt (hcs e he), Memory.read, if_pos rfl] at hr
          exact absurd hr.symm (hn.2 d (by simp)).2
      have hhead : c = d := by
        refine Prod.ext hcd ?_
        have hr := h c.1
        rwa [Memory.read, if_pos rfl, Memory.read, if_pos hcd.symm] at hr
      subst hhead
      refine congrArg _ (ih ds (tail_wf _ _ hm) (tail_wf _ _ hn) fun a => ?_)
      by_cases ha : c.1 = a
      · subst ha
        rw [read_below cs _ hcs, read_below ds _ hds]
      · have hr := h a
        rwa [Memory.read, if_neg ha, Memory.read, if_neg ha] at hr

end Sys2Proof.Machine
end

