-- ==== Sys2Proof/Laws/PerInstr.lean ====
section
/-! SUPPORT. The family `EncodeInRow`: the word of a well-formed instruction selects that instruction's own row of the
opcode map, and no row before it (spec/30_encoding.md R74). One lemma per constructor. -/

namespace Sys2Proof.Laws

/-- The word of `i` selects the row of `i` first. -/
def EncodeInRow.Statement (i : Instr) : Prop := i.WellFormed → firstRowOf (encode i) = i.row

/-- The row of a word, by the conditions on its fields. -/
theorem EncodeInRow.of_conditions (i : Instr) (h : i.WellFormed → (rowConditions (encode i)).findIdx id = i.row) :
    EncodeInRow.Statement i := fun hi => (firstRowOf_eq (encode i)).trans (h hi)

theorem EncodeInRow.cls : EncodeInRow.Statement (.cls) :=
  fun _ => by decide +kernel

theorem EncodeInRow.ret : EncodeInRow.Statement (.ret) :=
  fun _ => by decide +kernel

theorem EncodeInRow.sys (nnn : Addr) : EncodeInRow.Statement (.sys nnn) :=
  EncodeInRow.of_conditions _ fun h => by
    simp only [Instr.WellFormed, Instr.wf, sysOperandOk, Bool.and_eq_true, bne_iff_ne, ne_eq] at h
    simp [rowConditions, directConditions, List.findIdx_cons, encode, Instr.row, h.1, h.2]

theorem EncodeInRow.jp (nnn : Addr) : EncodeInRow.Statement (.jp nnn) :=
  EncodeInRow.of_conditions _ fun _ => by
    simp [rowConditions, directConditions, family8Conditions, upperConditions, familyFConditions, List.findIdx_cons, encode,
      Instr.row]

theorem EncodeInRow.call (nnn : Addr) : EncodeInRow.Statement (.call nnn) :=
  EncodeInRow.of_conditions _ fun _ => by
    simp [rowConditions, directConditions, family8Conditions, upperConditions, familyFConditions, List.findIdx_cons, encode,
      Instr.row]

theorem EncodeInRow.seVxKk (x : RegIdx) (kk : Byte) : EncodeInRow.Statement (.seVxKk x kk) :=
  EncodeInRow.of_conditions _ fun _ => by
    simp [rowConditions, directConditions, family8Conditions, upperConditions, familyFConditions, List.findIdx_cons, encode,
      Instr.row]

theorem EncodeInRow.sneVxKk (x : RegIdx) (kk : Byte) : EncodeInRow.Statement (.sneVxKk x kk) :=
  EncodeInRow.of_conditions _ fun _ => by
    simp [rowConditions, directConditions, family8Conditions, upperConditions, familyFConditions, List.findIdx_cons, encode,
      Instr.row]

theorem EncodeInRow.seVxVy (x y : RegIdx) : EncodeInRow.Statement (.seVxVy x y) :=
  EncodeInRow.of_conditions _ fun _ => by
    simp [rowConditions, directConditions, family8Conditions, upperConditions, familyFConditions, List.findIdx_cons, encode,
      Instr.row]

theorem EncodeInRow.ldVxKk (x : RegIdx) (kk : Byte) : EncodeInRow.Statement (.ldVxKk x kk) :=
  EncodeInRow.of_conditions _ fun _ => by
    simp [rowConditions, directConditions, family8Conditions, upperConditions, familyFConditions, List.findIdx_cons, encode,
      Instr.row]

theorem EncodeInRow.addVxKk (x : RegIdx) (kk : Byte) : EncodeInRow.Statement (.addVxKk x kk) :=
  EncodeInRow.of_conditions _ fun _ => by
    simp [rowConditions, directConditions, family8Conditions, upperConditions, familyFConditions, List.findIdx_cons, encode,
      Instr.row]

theorem EncodeInRow.ldVxVy (x y : RegIdx) : EncodeInRow.Statement (.ldVxVy x y) :=
  EncodeInRow.of_conditions _ fun _ => by
    simp [rowConditions, directConditions, family8Conditions, upperConditions, familyFConditions, List.findIdx_cons, encode,
      Instr.row]

theorem EncodeInRow.orVxVy (x y : RegIdx) : EncodeInRow.Statement (.orVxVy x y) :=
  EncodeInRow.of_conditions _ fun _ => by
    simp [rowConditions, directConditions, family8Conditions, upperConditions, familyFConditions, List.findIdx_cons, encode,
      Instr.row]

theorem EncodeInRow.andVxVy (x y : RegIdx) : EncodeInRow.Statement (.andVxVy x y) :=
  EncodeInRow.of_conditions _ fun _ => by
    simp [rowConditions, directConditions, family8Conditions, upperConditions, familyFConditions, List.findIdx_cons, encode,
      Instr.row]

theorem EncodeInRow.xorVxVy (x y : RegIdx) : EncodeInRow.Statement (.xorVxVy x y) :=
  EncodeInRow.of_conditions _ fun _ => by
    simp [rowConditions, directConditions, family8Conditions, upperConditions, familyFConditions, List.findIdx_cons, encode,
      Instr.row]

theorem EncodeInRow.addVxVy (x y : RegIdx) : EncodeInRow.Statement (.addVxVy x y) :=
  EncodeInRow.of_conditions _ fun _ => by
    simp [rowConditions, directConditions, family8Conditions, upperConditions, familyFConditions, List.findIdx_cons, encode,
      Instr.row]

theorem EncodeInRow.subVxVy (x y : RegIdx) : EncodeInRow.Statement (.subVxVy x y) :=
  EncodeInRow.of_conditions _ fun _ => by
    simp [rowConditions, directConditions, family8Conditions, upperConditions, familyFConditions, List.findIdx_cons, encode,
      Instr.row]

theorem EncodeInRow.shrVx (x : RegIdx) : EncodeInRow.Statement (.shrVx x) :=
  EncodeInRow.of_conditions _ fun _ => by
    simp [rowConditions, directConditions, family8Conditions, upperConditions, familyFConditions, List.findIdx_cons, encode,
      Instr.row]

theorem EncodeInRow.subnVxVy (x y : RegIdx) : EncodeInRow.Statement (.subnVxVy x y) :=
  EncodeInRow.of_conditions _ fun _ => by
    simp [rowConditions, directConditions, family8Conditions, upperConditions, familyFConditions, List.findIdx_cons, encode,
      Instr.row]

theorem EncodeInRow.shlVx (x : RegIdx) : EncodeInRow.Statement (.shlVx x) :=
  EncodeInRow.of_conditions _ fun _ => by
    simp [rowConditions, directConditions, family8Conditions, upperConditions, familyFConditions, List.findIdx_cons, encode,
      Instr.row]

theorem EncodeInRow.sneVxVy (x y : RegIdx) : EncodeInRow.Statement (.sneVxVy x y) :=
  EncodeInRow.of_conditions _ fun _ => by
    simp [rowConditions, directConditions, family8Conditions, upperConditions, familyFConditions, List.findIdx_cons, encode,
      Instr.row]

theorem EncodeInRow.ldI (nnn : Addr) : EncodeInRow.Statement (.ldI nnn) :=
  EncodeInRow.of_conditions _ fun _ => by
    simp [rowConditions, directConditions, family8Conditions, upperConditions, familyFConditions, List.findIdx_cons, encode,
      Instr.row]

theorem EncodeInRow.jpV0 (nnn : Addr) : EncodeInRow.Statement (.jpV0 nnn) :=
  EncodeInRow.of_conditions _ fun _ => by
    simp [rowConditions, directConditions, family8Conditions, upperConditions, familyFConditions, List.findIdx_cons, encode,
      Instr.row]

theorem EncodeInRow.rnd (x : RegIdx) (kk : Byte) : EncodeInRow.Statement (.rnd x kk) :=
  EncodeInRow.of_conditions _ fun _ => by
    simp [rowConditions, directConditions, family8Conditions, upperConditions, familyFConditions, List.findIdx_cons, encode,
      Instr.row]

theorem EncodeInRow.drw (x y : RegIdx) (n : Fin 16) : EncodeInRow.Statement (.drw x y n) :=
  EncodeInRow.of_conditions _ fun _ => by
    simp [rowConditions, directConditions, family8Conditions, upperConditions, familyFConditions, List.findIdx_cons, encode,
      Instr.row]

theorem EncodeInRow.skp (x : RegIdx) : EncodeInRow.Statement (.skp x) :=
  EncodeInRow.of_conditions _ fun _ => by
    simp [rowConditions, directConditions, family8Conditions, upperConditions, familyFConditions, List.findIdx_cons, encode,
      Instr.row]

theorem EncodeInRow.sknp (x : RegIdx) : EncodeInRow.Statement (.sknp x) :=
  EncodeInRow.of_conditions _ fun _ => by
    simp [rowConditions, directConditions, family8Conditions, upperConditions, familyFConditions, List.findIdx_cons, encode,
      Instr.row]

theorem EncodeInRow.ldVxDt (x : RegIdx) : EncodeInRow.Statement (.ldVxDt x) :=
  EncodeInRow.of_conditions _ fun _ => by
    simp [rowConditions, directConditions, family8Conditions, upperConditions, familyFConditions, List.findIdx_cons, encode,
      Instr.row]

theorem EncodeInRow.ldVxK (x : RegIdx) : EncodeInRow.Statement (.ldVxK x) :=
  EncodeInRow.of_conditions _ fun _ => by
    simp [rowConditions, directConditions, family8Conditions, upperConditions, familyFConditions, List.findIdx_cons, encode,
      Instr.row]

theorem EncodeInRow.ldDtVx (x : RegIdx) : EncodeInRow.Statement (.ldDtVx x) :=
  EncodeInRow.of_conditions _ fun _ => by
    simp [rowConditions, directConditions, family8Conditions, upperConditions, familyFConditions, List.findIdx_cons, encode,
      Instr.row]

theorem EncodeInRow.ldStVx (x : RegIdx) : EncodeInRow.Statement (.ldStVx x) :=
  EncodeInRow.of_conditions _ fun _ => by
    simp [rowConditions, directConditions, family8Conditions, upperConditions, familyFConditions, List.findIdx_cons, encode,
      Instr.row]

theorem EncodeInRow.addIVx (x : RegIdx) : EncodeInRow.Statement (.addIVx x) :=
  EncodeInRow.of_conditions _ fun _ => by
    simp [rowConditions, directConditions, family8Conditions, upperConditions, familyFConditions, List.findIdx_cons, encode,
      Instr.row]

theorem EncodeInRow.ldFVx (x : RegIdx) : EncodeInRow.Statement (.ldFVx x) :=
  EncodeInRow.of_conditions _ fun _ => by
    simp [rowConditions, directConditions, family8Conditions, upperConditions, familyFConditions, List.findIdx_cons, encode,
      Instr.row]

theorem EncodeInRow.ldBVx (x : RegIdx) : EncodeInRow.Statement (.ldBVx x) :=
  EncodeInRow.of_conditions _ fun _ => by
    simp [rowConditions, directConditions, family8Conditions, upperConditions, familyFConditions, List.findIdx_cons, encode,
      Instr.row]

theorem EncodeInRow.ldMemVx (x : RegIdx) : EncodeInRow.Statement (.ldMemVx x) :=
  EncodeInRow.of_conditions _ fun _ => by
    simp [rowConditions, directConditions, family8Conditions, upperConditions, familyFConditions, List.findIdx_cons, encode,
      Instr.row]

theorem EncodeInRow.ldVxMem (x : RegIdx) : EncodeInRow.Statement (.ldVxMem x) :=
  EncodeInRow.of_conditions _ fun _ => by
    simp [rowConditions, directConditions, family8Conditions, upperConditions, familyFConditions, List.findIdx_cons, encode,
      Instr.row]

theorem EncodeInRow.nopFamily8 : EncodeInRow.Statement (.nopFamily8) :=
  fun _ => by decide +kernel

theorem EncodeInRow.nopFamilyE : EncodeInRow.Statement (.nopFamilyE) :=
  fun _ => by decide +kernel

theorem EncodeInRow.nopFamilyF : EncodeInRow.Statement (.nopFamilyF) :=
  fun _ => by decide +kernel

end Sys2Proof.Laws
end

