-- ==== Sys2Proof/Laws/State.lean ====
section
/-! SUPPORT. What each named update of the state does to each field: one lemma per field per update, true by `rfl`. -/

namespace Sys2Proof.Machine

/-! ## `State.setV` -/

@[simp] theorem State.setV_V (s : State) (r : RegIdx) (v : Byte) : (s.setV r v).V = s.V.set r.val v := rfl
@[simp] theorem State.setV_pc (s : State) (r : RegIdx) (v : Byte) : (s.setV r v).pc = s.pc := rfl
@[simp] theorem State.setV_I (s : State) (r : RegIdx) (v : Byte) : (s.setV r v).I = s.I := rfl
@[simp] theorem State.setV_stack (s : State) (r : RegIdx) (v : Byte) : (s.setV r v).stack = s.stack := rfl
@[simp] theorem State.setV_SP (s : State) (r : RegIdx) (v : Byte) : (s.setV r v).SP = s.SP := rfl
@[simp] theorem State.setV_DT (s : State) (r : RegIdx) (v : Byte) : (s.setV r v).DT = s.DT := rfl
@[simp] theorem State.setV_ST (s : State) (r : RegIdx) (v : Byte) : (s.setV r v).ST = s.ST := rfl
@[simp] theorem State.setV_keypad (s : State) (r : RegIdx) (v : Byte) : (s.setV r v).keypad = s.keypad := rfl
@[simp] theorem State.setV_fb (s : State) (r : RegIdx) (v : Byte) : (s.setV r v).fb = s.fb := rfl
@[simp] theorem State.setV_mem (s : State) (r : RegIdx) (v : Byte) : (s.setV r v).mem = s.mem := rfl
@[simp] theorem State.setV_cur (s : State) (r : RegIdx) (v : Byte) : (s.setV r v).cur = s.cur := rfl
@[simp] theorem State.setV_rnd (s : State) (r : RegIdx) (v : Byte) : (s.setV r v).rnd = s.rnd := rfl
@[simp] theorem State.setV_inputs (s : State) (r : RegIdx) (v : Byte) : (s.setV r v).inputs = s.inputs := rfl
@[simp] theorem State.setV_draw (s : State) (r : RegIdx) (v : Byte) : (s.setV r v).draw = s.draw := rfl

/-! ## `State.setPc` -/

@[simp] theorem State.setPc_V (s : State) (v : Word) : (s.setPc v).V = s.V := rfl
@[simp] theorem State.setPc_pc (s : State) (v : Word) : (s.setPc v).pc = v := rfl
@[simp] theorem State.setPc_I (s : State) (v : Word) : (s.setPc v).I = s.I := rfl
@[simp] theorem State.setPc_stack (s : State) (v : Word) : (s.setPc v).stack = s.stack := rfl
@[simp] theorem State.setPc_SP (s : State) (v : Word) : (s.setPc v).SP = s.SP := rfl
@[simp] theorem State.setPc_DT (s : State) (v : Word) : (s.setPc v).DT = s.DT := rfl
@[simp] theorem State.setPc_ST (s : State) (v : Word) : (s.setPc v).ST = s.ST := rfl
@[simp] theorem State.setPc_keypad (s : State) (v : Word) : (s.setPc v).keypad = s.keypad := rfl
@[simp] theorem State.setPc_fb (s : State) (v : Word) : (s.setPc v).fb = s.fb := rfl
@[simp] theorem State.setPc_mem (s : State) (v : Word) : (s.setPc v).mem = s.mem := rfl
@[simp] theorem State.setPc_cur (s : State) (v : Word) : (s.setPc v).cur = s.cur := rfl
@[simp] theorem State.setPc_rnd (s : State) (v : Word) : (s.setPc v).rnd = s.rnd := rfl
@[simp] theorem State.setPc_inputs (s : State) (v : Word) : (s.setPc v).inputs = s.inputs := rfl
@[simp] theorem State.setPc_draw (s : State) (v : Word) : (s.setPc v).draw = s.draw := rfl

/-! ## `State.setI` -/

@[simp] theorem State.setI_V (s : State) (v : Word) : (s.setI v).V = s.V := rfl
@[simp] theorem State.setI_pc (s : State) (v : Word) : (s.setI v).pc = s.pc := rfl
@[simp] theorem State.setI_I (s : State) (v : Word) : (s.setI v).I = v := rfl
@[simp] theorem State.setI_stack (s : State) (v : Word) : (s.setI v).stack = s.stack := rfl
@[simp] theorem State.setI_SP (s : State) (v : Word) : (s.setI v).SP = s.SP := rfl
@[simp] theorem State.setI_DT (s : State) (v : Word) : (s.setI v).DT = s.DT := rfl
@[simp] theorem State.setI_ST (s : State) (v : Word) : (s.setI v).ST = s.ST := rfl
@[simp] theorem State.setI_keypad (s : State) (v : Word) : (s.setI v).keypad = s.keypad := rfl
@[simp] theorem State.setI_fb (s : State) (v : Word) : (s.setI v).fb = s.fb := rfl
@[simp] theorem State.setI_mem (s : State) (v : Word) : (s.setI v).mem = s.mem := rfl
@[simp] theorem State.setI_cur (s : State) (v : Word) : (s.setI v).cur = s.cur := rfl
@[simp] theorem State.setI_rnd (s : State) (v : Word) : (s.setI v).rnd = s.rnd := rfl
@[simp] theorem State.setI_inputs (s : State) (v : Word) : (s.setI v).inputs = s.inputs := rfl
@[simp] theorem State.setI_draw (s : State) (v : Word) : (s.setI v).draw = s.draw := rfl

/-! ## `State.setDT` -/

@[simp] theorem State.setDT_V (s : State) (v : Byte) : (s.setDT v).V = s.V := rfl
@[simp] theorem State.setDT_pc (s : State) (v : Byte) : (s.setDT v).pc = s.pc := rfl
@[simp] theorem State.setDT_I (s : State) (v : Byte) : (s.setDT v).I = s.I := rfl
@[simp] theorem State.setDT_stack (s : State) (v : Byte) : (s.setDT v).stack = s.stack := rfl
@[simp] theorem State.setDT_SP (s : State) (v : Byte) : (s.setDT v).SP = s.SP := rfl
@[simp] theorem State.setDT_DT (s : State) (v : Byte) : (s.setDT v).DT = v := rfl
@[simp] theorem State.setDT_ST (s : State) (v : Byte) : (s.setDT v).ST = s.ST := rfl
@[simp] theorem State.setDT_keypad (s : State) (v : Byte) : (s.setDT v).keypad = s.keypad := rfl
@[simp] theorem State.setDT_fb (s : State) (v : Byte) : (s.setDT v).fb = s.fb := rfl
@[simp] theorem State.setDT_mem (s : State) (v : Byte) : (s.setDT v).mem = s.mem := rfl
@[simp] theorem State.setDT_cur (s : State) (v : Byte) : (s.setDT v).cur = s.cur := rfl
@[simp] theorem State.setDT_rnd (s : State) (v : Byte) : (s.setDT v).rnd = s.rnd := rfl
@[simp] theorem State.setDT_inputs (s : State) (v : Byte) : (s.setDT v).inputs = s.inputs := rfl
@[simp] theorem State.setDT_draw (s : State) (v : Byte) : (s.setDT v).draw = s.draw := rfl

/-! ## `State.setST` -/

@[simp] theorem State.setST_V (s : State) (v : Byte) : (s.setST v).V = s.V := rfl
@[simp] theorem State.setST_pc (s : State) (v : Byte) : (s.setST v).pc = s.pc := rfl
@[simp] theorem State.setST_I (s : State) (v : Byte) : (s.setST v).I = s.I := rfl
@[simp] theorem State.setST_stack (s : State) (v : Byte) : (s.setST v).stack = s.stack := rfl
@[simp] theorem State.setST_SP (s : State) (v : Byte) : (s.setST v).SP = s.SP := rfl
@[simp] theorem State.setST_DT (s : State) (v : Byte) : (s.setST v).DT = s.DT := rfl
@[simp] theorem State.setST_ST (s : State) (v : Byte) : (s.setST v).ST = v := rfl
@[simp] theorem State.setST_keypad (s : State) (v : Byte) : (s.setST v).keypad = s.keypad := rfl
@[simp] theorem State.setST_fb (s : State) (v : Byte) : (s.setST v).fb = s.fb := rfl
@[simp] theorem State.setST_mem (s : State) (v : Byte) : (s.setST v).mem = s.mem := rfl
@[simp] theorem State.setST_cur (s : State) (v : Byte) : (s.setST v).cur = s.cur := rfl
@[simp] theorem State.setST_rnd (s : State) (v : Byte) : (s.setST v).rnd = s.rnd := rfl
@[simp] theorem State.setST_inputs (s : State) (v : Byte) : (s.setST v).inputs = s.inputs := rfl
@[simp] theorem State.setST_draw (s : State) (v : Byte) : (s.setST v).draw = s.draw := rfl

/-! ## `State.setFb` -/

@[simp] theorem State.setFb_V (s : State) (v : Vector Bool 2048) : (s.setFb v).V = s.V := rfl
@[simp] theorem State.setFb_pc (s : State) (v : Vector Bool 2048) : (s.setFb v).pc = s.pc := rfl
@[simp] theorem State.setFb_I (s : State) (v : Vector Bool 2048) : (s.setFb v).I = s.I := rfl
@[simp] theorem State.setFb_stack (s : State) (v : Vector Bool 2048) : (s.setFb v).stack = s.stack := rfl
@[simp] theorem State.setFb_SP (s : State) (v : Vector Bool 2048) : (s.setFb v).SP = s.SP := rfl
@[simp] theorem State.setFb_DT (s : State) (v : Vector Bool 2048) : (s.setFb v).DT = s.DT := rfl
@[simp] theorem State.setFb_ST (s : State) (v : Vector Bool 2048) : (s.setFb v).ST = s.ST := rfl
@[simp] theorem State.setFb_keypad (s : State) (v : Vector Bool 2048) : (s.setFb v).keypad = s.keypad := rfl
@[simp] theorem State.setFb_fb (s : State) (v : Vector Bool 2048) : (s.setFb v).fb = v := rfl
@[simp] theorem State.setFb_mem (s : State) (v : Vector Bool 2048) : (s.setFb v).mem = s.mem := rfl
@[simp] theorem State.setFb_cur (s : State) (v : Vector Bool 2048) : (s.setFb v).cur = s.cur := rfl
@[simp] theorem State.setFb_rnd (s : State) (v : Vector Bool 2048) : (s.setFb v).rnd = s.rnd := rfl
@[simp] theorem State.setFb_inputs (s : State) (v : Vector Bool 2048) : (s.setFb v).inputs = s.inputs := rfl
@[simp] theorem State.setFb_draw (s : State) (v : Vector Bool 2048) : (s.setFb v).draw = s.draw := rfl

/-! ## `State.setMem` -/

@[simp] theorem State.setMem_V (s : State) (m : Memory) : (s.setMem m).V = s.V := rfl
@[simp] theorem State.setMem_pc (s : State) (m : Memory) : (s.setMem m).pc = s.pc := rfl
@[simp] theorem State.setMem_I (s : State) (m : Memory) : (s.setMem m).I = s.I := rfl
@[simp] theorem State.setMem_stack (s : State) (m : Memory) : (s.setMem m).stack = s.stack := rfl
@[simp] theorem State.setMem_SP (s : State) (m : Memory) : (s.setMem m).SP = s.SP := rfl
@[simp] theorem State.setMem_DT (s : State) (m : Memory) : (s.setMem m).DT = s.DT := rfl
@[simp] theorem State.setMem_ST (s : State) (m : Memory) : (s.setMem m).ST = s.ST := rfl
@[simp] theorem State.setMem_keypad (s : State) (m : Memory) : (s.setMem m).keypad = s.keypad := rfl
@[simp] theorem State.setMem_fb (s : State) (m : Memory) : (s.setMem m).fb = s.fb := rfl
@[simp] theorem State.setMem_mem (s : State) (m : Memory) : (s.setMem m).mem = m := rfl
@[simp] theorem State.setMem_cur (s : State) (m : Memory) : (s.setMem m).cur = s.cur := rfl
@[simp] theorem State.setMem_rnd (s : State) (m : Memory) : (s.setMem m).rnd = s.rnd := rfl
@[simp] theorem State.setMem_inputs (s : State) (m : Memory) : (s.setMem m).inputs = s.inputs := rfl
@[simp] theorem State.setMem_draw (s : State) (m : Memory) : (s.setMem m).draw = s.draw := rfl

/-! ## `State.advance` -/

@[simp] theorem State.advance_V (s : State) (op : Word) : (s.advance op).V = s.V := rfl
@[simp] theorem State.advance_pc (s : State) (op : Word) : (s.advance op).pc = s.pc + 2 := rfl
@[simp] theorem State.advance_I (s : State) (op : Word) : (s.advance op).I = s.I := rfl
@[simp] theorem State.advance_stack (s : State) (op : Word) : (s.advance op).stack = s.stack := rfl
@[simp] theorem State.advance_SP (s : State) (op : Word) : (s.advance op).SP = s.SP := rfl
@[simp] theorem State.advance_DT (s : State) (op : Word) : (s.advance op).DT = s.DT := rfl
@[simp] theorem State.advance_ST (s : State) (op : Word) : (s.advance op).ST = s.ST := rfl
@[simp] theorem State.advance_keypad (s : State) (op : Word) : (s.advance op).keypad = s.keypad := rfl
@[simp] theorem State.advance_fb (s : State) (op : Word) : (s.advance op).fb = s.fb := rfl
@[simp] theorem State.advance_mem (s : State) (op : Word) : (s.advance op).mem = s.mem := rfl
@[simp] theorem State.advance_cur (s : State) (op : Word) : (s.advance op).cur = op := rfl
@[simp] theorem State.advance_rnd (s : State) (op : Word) : (s.advance op).rnd = s.rnd := rfl
@[simp] theorem State.advance_inputs (s : State) (op : Word) : (s.advance op).inputs = s.inputs := rfl
@[simp] theorem State.advance_draw (s : State) (op : Word) : (s.advance op).draw = s.draw := rfl

/-! ## `State.tickTimers` -/

@[simp] theorem State.tickTimers_V (s : State) : s.tickTimers.V = s.V := rfl
@[simp] theorem State.tickTimers_pc (s : State) : s.tickTimers.pc = s.pc := rfl
@[simp] theorem State.tickTimers_I (s : State) : s.tickTimers.I = s.I := rfl
@[simp] theorem State.tickTimers_stack (s : State) : s.tickTimers.stack = s.stack := rfl
@[simp] theorem State.tickTimers_SP (s : State) : s.tickTimers.SP = s.SP := rfl
@[simp] theorem State.tickTimers_DT (s : State) : s.tickTimers.DT = countDown s.DT := rfl
@[simp] theorem State.tickTimers_ST (s : State) : s.tickTimers.ST = countDown s.ST := rfl
@[simp] theorem State.tickTimers_keypad (s : State) : s.tickTimers.keypad = s.keypad := rfl
@[simp] theorem State.tickTimers_fb (s : State) : s.tickTimers.fb = s.fb := rfl
@[simp] theorem State.tickTimers_mem (s : State) : s.tickTimers.mem = s.mem := rfl
@[simp] theorem State.tickTimers_cur (s : State) : s.tickTimers.cur = s.cur := rfl
@[simp] theorem State.tickTimers_rnd (s : State) : s.tickTimers.rnd = s.rnd := rfl
@[simp] theorem State.tickTimers_inputs (s : State) : s.tickTimers.inputs = s.inputs := rfl
@[simp] theorem State.tickTimers_draw (s : State) : s.tickTimers.draw = s.draw := rfl

/-! ## `State.withArgs` -/

@[simp] theorem State.withArgs_V (s : State) (keys : Vector Bool 16) (rnd : Byte) : (s.withArgs keys rnd).V = s.V := rfl
@[simp] theorem State.withArgs_pc (s : State) (keys : Vector Bool 16) (rnd : Byte) : (s.withArgs keys rnd).pc = s.pc := rfl
@[simp] theorem State.withArgs_I (s : State) (keys : Vector Bool 16) (rnd : Byte) : (s.withArgs keys rnd).I = s.I := rfl
@[simp] theorem State.withArgs_stack (s : State) (keys : Vector Bool 16) (rnd : Byte) : (s.withArgs keys rnd).stack = s.stack := rfl
@[simp] theorem State.withArgs_SP (s : State) (keys : Vector Bool 16) (rnd : Byte) : (s.withArgs keys rnd).SP = s.SP := rfl
@[simp] theorem State.withArgs_DT (s : State) (keys : Vector Bool 16) (rnd : Byte) : (s.withArgs keys rnd).DT = s.DT := rfl
@[simp] theorem State.withArgs_ST (s : State) (keys : Vector Bool 16) (rnd : Byte) : (s.withArgs keys rnd).ST = s.ST := rfl
@[simp] theorem State.withArgs_keypad (s : State) (keys : Vector Bool 16) (rnd : Byte) : (s.withArgs keys rnd).keypad = keys := rfl
@[simp] theorem State.withArgs_fb (s : State) (keys : Vector Bool 16) (rnd : Byte) : (s.withArgs keys rnd).fb = s.fb := rfl
@[simp] theorem State.withArgs_mem (s : State) (keys : Vector Bool 16) (rnd : Byte) : (s.withArgs keys rnd).mem = s.mem := rfl
@[simp] theorem State.withArgs_cur (s : State) (keys : Vector Bool 16) (rnd : Byte) : (s.withArgs keys rnd).cur = s.cur := rfl
@[simp] theorem State.withArgs_rnd (s : State) (keys : Vector Bool 16) (rnd : Byte) : (s.withArgs keys rnd).rnd = rnd := rfl
@[simp] theorem State.withArgs_inputs (s : State) (keys : Vector Bool 16) (rnd : Byte) : (s.withArgs keys rnd).inputs = s.inputs := rfl
@[simp] theorem State.withArgs_draw (s : State) (keys : Vector Bool 16) (rnd : Byte) : (s.withArgs keys rnd).draw = s.draw := rfl

/-! ## `State.latchInput` -/

@[simp] theorem State.latchInput_V (s : State) : s.latchInput.V = s.V := rfl
@[simp] theorem State.latchInput_pc (s : State) : s.latchInput.pc = s.pc := rfl
@[simp] theorem State.latchInput_I (s : State) : s.latchInput.I = s.I := rfl
@[simp] theorem State.latchInput_stack (s : State) : s.latchInput.stack = s.stack := rfl
@[simp] theorem State.latchInput_SP (s : State) : s.latchInput.SP = s.SP := rfl
@[simp] theorem State.latchInput_DT (s : State) : s.latchInput.DT = s.DT := rfl
@[simp] theorem State.latchInput_ST (s : State) : s.latchInput.ST = s.ST := rfl
@[simp] theorem State.latchInput_keypad (s : State) : s.latchInput.keypad = s.nextInput.keys := rfl
@[simp] theorem State.latchInput_fb (s : State) : s.latchInput.fb = s.fb := rfl
@[simp] theorem State.latchInput_mem (s : State) : s.latchInput.mem = s.mem := rfl
@[simp] theorem State.latchInput_cur (s : State) : s.latchInput.cur = s.cur := rfl
@[simp] theorem State.latchInput_rnd (s : State) : s.latchInput.rnd = s.nextInput.rnd := rfl
@[simp] theorem State.latchInput_inputs (s : State) : s.latchInput.inputs = s.inputs.tail := rfl
@[simp] theorem State.latchInput_draw (s : State) : s.latchInput.draw = s.draw + 1 := rfl

/-! ## `State.setFlag` -/

@[simp] theorem State.setFlag_pc (s : State) (f : Bool) : (s.setFlag f).pc = s.pc := rfl
@[simp] theorem State.setFlag_I (s : State) (f : Bool) : (s.setFlag f).I = s.I := rfl
@[simp] theorem State.setFlag_stack (s : State) (f : Bool) : (s.setFlag f).stack = s.stack := rfl
@[simp] theorem State.setFlag_SP (s : State) (f : Bool) : (s.setFlag f).SP = s.SP := rfl
@[simp] theorem State.setFlag_DT (s : State) (f : Bool) : (s.setFlag f).DT = s.DT := rfl
@[simp] theorem State.setFlag_ST (s : State) (f : Bool) : (s.setFlag f).ST = s.ST := rfl
@[simp] theorem State.setFlag_keypad (s : State) (f : Bool) : (s.setFlag f).keypad = s.keypad := rfl
@[simp] theorem State.setFlag_fb (s : State) (f : Bool) : (s.setFlag f).fb = s.fb := rfl
@[simp] theorem State.setFlag_mem (s : State) (f : Bool) : (s.setFlag f).mem = s.mem := rfl
@[simp] theorem State.setFlag_cur (s : State) (f : Bool) : (s.setFlag f).cur = s.cur := rfl
@[simp] theorem State.setFlag_rnd (s : State) (f : Bool) : (s.setFlag f).rnd = s.rnd := rfl
@[simp] theorem State.setFlag_inputs (s : State) (f : Bool) : (s.setFlag f).inputs = s.inputs := rfl
@[simp] theorem State.setFlag_draw (s : State) (f : Bool) : (s.setFlag f).draw = s.draw := rfl

/-! ## `State.setResultAndFlag` -/

@[simp] theorem State.setResultAndFlag_pc (s : State) (x : RegIdx) (r : Byte) (f : Bool) : (s.setResultAndFlag x r f).pc = s.pc := rfl
@[simp] theorem State.setResultAndFlag_I (s : State) (x : RegIdx) (r : Byte) (f : Bool) : (s.setResultAndFlag x r f).I = s.I := rfl
@[simp] theorem State.setResultAndFlag_stack (s : State) (x : RegIdx) (r : Byte) (f : Bool) : (s.setResultAndFlag x r f).stack = s.stack := rfl
@[simp] theorem State.setResultAndFlag_SP (s : State) (x : RegIdx) (r : Byte) (f : Bool) : (s.setResultAndFlag x r f).SP = s.SP := rfl
@[simp] theorem State.setResultAndFlag_DT (s : State) (x : RegIdx) (r : Byte) (f : Bool) : (s.setResultAndFlag x r f).DT = s.DT := rfl
@[simp] theorem State.setResultAndFlag_ST (s : State) (x : RegIdx) (r : Byte) (f : Bool) : (s.setResultAndFlag x r f).ST = s.ST := rfl
@[simp] theorem State.setResultAndFlag_keypad (s : State) (x : RegIdx) (r : Byte) (f : Bool) : (s.setResultAndFlag x r f).keypad = s.keypad := rfl
@[simp] theorem State.setResultAndFlag_fb (s : State) (x : RegIdx) (r : Byte) (f : Bool) : (s.setResultAndFlag x r f).fb = s.fb := rfl
@[simp] theorem State.setResultAndFlag_mem (s : State) (x : RegIdx) (r : Byte) (f : Bool) : (s.setResultAndFlag x r f).mem = s.mem := rfl
@[simp] theorem State.setResultAndFlag_cur (s : State) (x : RegIdx) (r : Byte) (f : Bool) : (s.setResultAndFlag x r f).cur = s.cur := rfl
@[simp] theorem State.setResultAndFlag_rnd (s : State) (x : RegIdx) (r : Byte) (f : Bool) : (s.setResultAndFlag x r f).rnd = s.rnd := rfl
@[simp] theorem State.setResultAndFlag_inputs (s : State) (x : RegIdx) (r : Byte) (f : Bool) : (s.setResultAndFlag x r f).inputs = s.inputs := rfl
@[simp] theorem State.setResultAndFlag_draw (s : State) (x : RegIdx) (r : Byte) (f : Bool) : (s.setResultAndFlag x r f).draw = s.draw := rfl

/-! ## `State.loadLowRegisters` -/

@[simp] theorem State.loadLowRegisters_pc (s : State) (x : RegIdx) : (s.loadLowRegisters x).pc = s.pc := rfl
@[simp] theorem State.loadLowRegisters_I (s : State) (x : RegIdx) : (s.loadLowRegisters x).I = s.I := rfl
@[simp] theorem State.loadLowRegisters_stack (s : State) (x : RegIdx) : (s.loadLowRegisters x).stack = s.stack := rfl
@[simp] theorem State.loadLowRegisters_SP (s : State) (x : RegIdx) : (s.loadLowRegisters x).SP = s.SP := rfl
@[simp] theorem State.loadLowRegisters_DT (s : State) (x : RegIdx) : (s.loadLowRegisters x).DT = s.DT := rfl
@[simp] theorem State.loadLowRegisters_ST (s : State) (x : RegIdx) : (s.loadLowRegisters x).ST = s.ST := rfl
@[simp] theorem State.loadLowRegisters_keypad (s : State) (x : RegIdx) : (s.loadLowRegisters x).keypad = s.keypad := rfl
@[simp] theorem State.loadLowRegisters_fb (s : State) (x : RegIdx) : (s.loadLowRegisters x).fb = s.fb := rfl
@[simp] theorem State.loadLowRegisters_mem (s : State) (x : RegIdx) : (s.loadLowRegisters x).mem = s.mem := rfl
@[simp] theorem State.loadLowRegisters_cur (s : State) (x : RegIdx) : (s.loadLowRegisters x).cur = s.cur := rfl
@[simp] theorem State.loadLowRegisters_rnd (s : State) (x : RegIdx) : (s.loadLowRegisters x).rnd = s.rnd := rfl
@[simp] theorem State.loadLowRegisters_inputs (s : State) (x : RegIdx) : (s.loadLowRegisters x).inputs = s.inputs := rfl
@[simp] theorem State.loadLowRegisters_draw (s : State) (x : RegIdx) : (s.loadLowRegisters x).draw = s.draw := rfl

/-! ## `State.skipIf` -/

@[simp] theorem State.skipIf_V (s : State) (c : Bool) : (s.skipIf c).V = s.V := by cases c <;> rfl
theorem State.skipIf_pc (s : State) (c : Bool) : (s.skipIf c).pc = if c then s.pc + 2 else s.pc := by cases c <;> rfl
@[simp] theorem State.skipIf_I (s : State) (c : Bool) : (s.skipIf c).I = s.I := by cases c <;> rfl
@[simp] theorem State.skipIf_stack (s : State) (c : Bool) : (s.skipIf c).stack = s.stack := by cases c <;> rfl
@[simp] theorem State.skipIf_SP (s : State) (c : Bool) : (s.skipIf c).SP = s.SP := by cases c <;> rfl
@[simp] theorem State.skipIf_DT (s : State) (c : Bool) : (s.skipIf c).DT = s.DT := by cases c <;> rfl
@[simp] theorem State.skipIf_ST (s : State) (c : Bool) : (s.skipIf c).ST = s.ST := by cases c <;> rfl
@[simp] theorem State.skipIf_keypad (s : State) (c : Bool) : (s.skipIf c).keypad = s.keypad := by cases c <;> rfl
@[simp] theorem State.skipIf_fb (s : State) (c : Bool) : (s.skipIf c).fb = s.fb := by cases c <;> rfl
@[simp] theorem State.skipIf_mem (s : State) (c : Bool) : (s.skipIf c).mem = s.mem := by cases c <;> rfl
@[simp] theorem State.skipIf_cur (s : State) (c : Bool) : (s.skipIf c).cur = s.cur := by cases c <;> rfl
@[simp] theorem State.skipIf_rnd (s : State) (c : Bool) : (s.skipIf c).rnd = s.rnd := by cases c <;> rfl
@[simp] theorem State.skipIf_inputs (s : State) (c : Bool) : (s.skipIf c).inputs = s.inputs := by cases c <;> rfl
@[simp] theorem State.skipIf_draw (s : State) (c : Bool) : (s.skipIf c).draw = s.draw := by cases c <;> rfl

/-! ## Registers -/

theorem State.getV_setV (s : State) (x r : RegIdx) (v : Byte) : (s.setV x v).getV r = if r = x then v else s.getV r := by
  simp only [State.getV, State.setV, Vector.getElem_set, Fin.ext_iff, eq_comm]

@[simp] theorem State.getV_setV_same (s : State) (x : RegIdx) (v : Byte) : (s.setV x v).getV x = v := by
  simp [State.getV_setV]

@[simp] theorem State.getV_setV_ne (s : State) (x r : RegIdx) (v : Byte) (h : r ≠ x) :
    (s.setV x v).getV r = s.getV r := by simp [State.getV_setV, h]

/-- Two states with the same register file read the same registers. -/
theorem State.getV_congr (s t : State) (h : t.V = s.V) (r : RegIdx) : t.getV r = s.getV r := by
  simp only [State.getV, h]

theorem State.getV_setFlag (s : State) (f : Bool) (r : RegIdx) :
    (s.setFlag f).getV r = if r = vf then flagByte f else s.getV r := State.getV_setV s vf r _

/-- The flag is written last, so it stays when the result's register is `V[15]` (R110). -/
theorem State.getV_setResultAndFlag (s : State) (x r : RegIdx) (v : Byte) (f : Bool) :
    (s.setResultAndFlag x v f).getV r = if r = vf then flagByte f else if r = x then v else s.getV r := by
  simp only [State.setResultAndFlag, State.getV_setFlag, State.getV_setV]

theorem State.getV_loadLowRegisters (s : State) (x r : RegIdx) :
    (s.loadLowRegisters x).getV r = if r ≤ x then s.mem.read (effAddr s.I r.val) else s.getV r := by
  simp [State.getV, State.loadLowRegisters]

/-! ## The stack controller -/

/-- Everything a push can do (R102). -/
theorem State.pushReturn_eq (s : State) (v : Word) (h : s.SP.val < 16) :
    s.pushReturn v = some { s with stack := s.stack.set s.SP.val v h, SP := ⟨s.SP.val + 1, Nat.succ_lt_succ h⟩ } := by
  simp [State.pushReturn, h]

theorem State.pushReturn_none_iff (s : State) (v : Word) : s.pushReturn v = none ↔ s.SP.val = 16 := by
  have := s.SP.isLt
  unfold State.pushReturn
  split <;> simp <;> omega

/-- A push that succeeds changes the stack and `SP` alone. -/
theorem State.pushReturn_some (s t : State) (v : Word) (h : s.pushReturn v = some t) :
    ∃ hs : s.SP.val < 16,
      t = { s with stack := s.stack.set s.SP.val v hs, SP := ⟨s.SP.val + 1, Nat.succ_lt_succ hs⟩ } := by
  unfold State.pushReturn at h
  split at h
  · next hs => exact ⟨hs, by simpa using h.symm⟩
  · cases h

theorem State.popReturn_none_iff (s : State) : s.popReturn = none ↔ s.SP.val = 0 := by
  unfold State.popReturn
  split <;> simp <;> omega

/-- A pop that succeeds answers the slot below `SP` and changes `SP` alone (R103). -/
theorem State.popReturn_some (s t : State) (v : Word) (h : s.popReturn = some (v, t)) :
    ∃ (_ : 0 < s.SP.val) (hb : s.SP.val - 1 < 16),
      v = s.stack[s.SP.val - 1] ∧ t = { s with SP := ⟨s.SP.val - 1, Nat.lt_succ_of_lt hb⟩ } := by
  unfold State.popReturn at h
  split at h
  · next hs =>
    have hb : s.SP.val - 1 < 16 := by omega
    simp only [Option.some.injEq, Prod.mk.injEq] at h
    exact ⟨hs, hb, h.1.symm, h.2.symm⟩
  · cases h

/-! ## Results -/

@[simp] theorem onNext_next (s : State) (k : State → State) : onNext (.next s) k = .next (k s) := rfl

@[simp] theorem onNext_raise (f : Fault) (k : State → State) : onNext (raise f) k = raise f := rfl

/-- What goes on after a next state had a next state. -/
theorem onNext_eq_next (r : Result) (k : State → State) (t : State) (h : onNext r k = .next t) :
    ∃ u, r = .next u ∧ t = k u := by
  cases r with
  | next u => exact ⟨u, rfl, by simpa [onNext] using h.symm⟩
  | fault f => cases h
  | refused q => cases h

theorem countDown_toNat (v : Byte) : (countDown v).toNat = v.toNat - 1 := by
  unfold countDown
  split
  · next h => simp [h]
  · next h =>
    have hv : v.toNat ≠ 0 := fun h0 => h (BitVec.eq_of_toNat_eq (by simpa using h0))
    have := v.isLt
    have h1 : (1 : Byte).toNat = 1 := rfl
    rw [BitVec.toNat_sub, h1]
    omega

end Sys2Proof.Machine
end

