-- ==== Sys2Proof/Laws/Step.lean ====
section
/-! SUPPORT. What a step can do, said once: the fetch, the cycle, and each meaning that can end in a fault. -/

namespace Sys2Proof.Machine

/-! ## The fetch (R53) -/

theorem State.fetch_none_iff (s : State) : s.fetch = none ↔ 4095 ≤ s.pc.toNat := by
  unfold State.fetch Config.memSize
  split <;> simp <;> omega

theorem State.fetch_eq_some (s : State) (h : s.pc.toNat ≤ 4094) :
    s.fetch = some (s.mem.read s.pc.toNat ++ s.mem.read (s.pc.toNat + 1)) := by
  unfold State.fetch Config.memSize
  rw [if_neg (by omega)]

theorem State.fetch_some (s : State) (op : Word) (h : s.fetch = some op) :
    s.pc.toNat ≤ 4094 ∧ op = s.mem.read s.pc.toNat ++ s.mem.read (s.pc.toNat + 1) := by
  unfold State.fetch Config.memSize at h
  split at h
  · cases h
  · exact ⟨by omega, by simpa using h.symm⟩

@[simp] theorem State.fetch_withArgs (s : State) (keys : Vector Bool 16) (rnd : Byte) :
    (s.withArgs keys rnd).fetch = s.fetch := rfl

@[simp] theorem State.fetch_latchInput (s : State) : s.latchInput.fetch = s.fetch := rfl

theorem Word.toNat_add_two (v : Word) : (v + 2).toNat = (v.toNat + 2) % 65536 := BitVec.toNat_add v 2

theorem Word.toNat_sub_two (v : Word) : (v - 2).toNat = (v.toNat + 65534) % 65536 := by
  rw [BitVec.toNat_sub, Nat.add_comm]
  rfl

/-- After a fetch the pc has not wrapped (R22). -/
theorem State.toNat_advance_pc (s : State) (op : Word) (h : s.pc.toNat ≤ 4094) :
    (s.advance op).pc.toNat = s.pc.toNat + 2 := by
  rw [State.advance_pc, Word.toNat_add_two]
  omega

/-- The machine's step is the spec's `step(keys, rnd)` for the next input of the queue. -/
theorem step_eq_stepWith (s : State) :
    step s = stepWith s.nextInput.keys s.nextInput.rnd { s with inputs := s.inputs.tail, draw := s.draw + 1 } := rfl

/-! ## The cycle (R90) -/

/-- With a fetchable pc the cycle runs the instruction there. -/
theorem cycle_of_fetch (s : State) (op : Word) (h : s.fetch = some op) :
    cycle s = onNext (exec (decodeWord op) (s.advance op)) fun t => t.tickTimers := by
  unfold cycle runWord
  rw [h]

theorem cycle_of_no_fetch (s : State) (h : s.fetch = none) : cycle s = .fault .addressOutOfRange := by
  unfold cycle raise
  rw [h]

/-- Everything a completed cycle has done. -/
theorem cycle_next (s t : State) (h : cycle s = .next t) :
    ∃ op u, s.fetch = some op ∧ exec (decodeWord op) (s.advance op) = .next u ∧ t = u.tickTimers := by
  cases hf : s.fetch with
  | none => rw [cycle_of_no_fetch s hf] at h; cases h
  | some op =>
    rw [cycle_of_fetch s op hf] at h
    obtain ⟨u, hu, ht⟩ := onNext_eq_next _ _ _ h
    exact ⟨op, u, rfl, hu, ht⟩

/-- A cycle faults at the fetch or in the execute phase, and nowhere else (R162). -/
theorem cycle_fault_iff (s : State) (f : Fault) :
    cycle s = .fault f ↔ (s.fetch = none ∧ f = .addressOutOfRange) ∨
      ∃ op, s.fetch = some op ∧ exec (decodeWord op) (s.advance op) = .fault f := by
  cases hf : s.fetch with
  | none =>
    rw [cycle_of_no_fetch s hf]
    simp [eq_comm]
  | some op =>
    rw [cycle_of_fetch s op hf]
    simp only [reduceCtorEq, false_and, false_or, Option.some.injEq, exists_eq_left']
    cases exec (decodeWord op) (s.advance op) <;> simp [onNext]

/-! ## Runs -/

/-- A completed run of one step or more is a completed step and then a completed run. -/
theorem run_succ_next (M : Host.Core) (k : Nat) (s t : M.State) (h : M.run (k + 1) s = .next t) :
    ∃ u, M.step s = .next u ∧ M.run k u = .next t := by
  unfold Host.Core.run at h
  split at h
  · exact ⟨_, ‹_›, h⟩
  · cases h
  · cases h

theorem run_succ_of_next (M : Host.Core) (k : Nat) (s u : M.State) (h : M.step s = .next u) : M.run (k + 1) s = M.run k u := by
  conv => lhs; unfold Host.Core.run
  rw [h]

theorem core_run_succ_of_next (k : Nat) (s u : State) (h : step s = .next u) :
    Sys2Proof.core.run (k + 1) s = Sys2Proof.core.run k u := run_succ_of_next Sys2Proof.core k s u h

theorem core_run_succ_next (k : Nat) (s t : State) (h : Sys2Proof.core.run (k + 1) s = .next t) :
    ∃ u, step s = .next u ∧ Sys2Proof.core.run k u = .next t := run_succ_next Sys2Proof.core k s t h

theorem core_run_zero_next (s t : State) (h : Sys2Proof.core.run 0 s = .next t) : t = s := by
  injection h with h
  exact h.symm

/-! ## The meanings that can fault: everything each one can do -/

theorem execCall_next (nnn : Addr) (s t : State) (h : execCall nnn s = .next t) :
    ∃ hs : s.SP.val < 16, t = { s with
      stack := s.stack.set s.SP.val s.pc hs, SP := ⟨s.SP.val + 1, Nat.succ_lt_succ hs⟩, pc := zextAddr nnn } := by
  unfold execCall at h
  split at h
  · next u hu =>
    obtain ⟨hs, rfl⟩ := State.pushReturn_some _ _ _ hu
    exact ⟨hs, by simpa [State.setPc] using h.symm⟩
  · cases h

theorem execRet_next (s t : State) (h : execRet s = .next t) :
    ∃ (_ : 0 < s.SP.val) (hb : s.SP.val - 1 < 16),
      t = { s with SP := ⟨s.SP.val - 1, Nat.lt_succ_of_lt hb⟩, pc := s.stack[s.SP.val - 1] } := by
  unfold execRet at h
  split at h
  · next v u hu =>
    obtain ⟨hs, hb, rfl, rfl⟩ := State.popReturn_some _ _ _ hu
    exact ⟨hs, hb, by simpa [State.setPc] using h.symm⟩
  · cases h

theorem keyIndex_eq (v : Byte) (k : KeyIdx) (h : v.toNat = k.val) : keyIndex v = some k := by
  unfold keyIndex
  rw [dif_pos (by omega)]
  exact congrArg some (Fin.ext h)

theorem keyIndex_none (v : Byte) (h : 15 < v.toNat) : keyIndex v = none := by
  unfold keyIndex
  rw [dif_neg (by omega)]

theorem execSkp_next (x : RegIdx) (s t : State) (h : execSkp x s = .next t) : ∃ cond, t = s.skipIf cond := by
  unfold execSkp at h
  split at h
  · exact ⟨_, by simpa using h.symm⟩
  · cases h

theorem execSknp_next (x : RegIdx) (s t : State) (h : execSknp x s = .next t) : ∃ cond, t = s.skipIf cond := by
  unfold execSknp at h
  split at h
  · exact ⟨_, by simpa using h.symm⟩
  · cases h

theorem execLdBVx_next (x : RegIdx) (s t : State) (h : execLdBVx x s = .next t) :
    cellsExist s.I 3 ∧ t = s.setMem (s.mem.writeBytes (effAddr s.I 0) (decimalDigits (s.getV x))) := by
  unfold execLdBVx at h
  split at h
  · next hc => exact ⟨hc, by simpa using h.symm⟩
  · cases h

theorem execLdMemVx_next (x : RegIdx) (s t : State) (h : execLdMemVx x s = .next t) :
    cellsExist s.I (x.val + 1) ∧ t = s.setMem (s.mem.writeBytes (effAddr s.I 0) (s.lowRegisters x)) := by
  unfold execLdMemVx at h
  split at h
  · next hc => exact ⟨hc, by simpa using h.symm⟩
  · cases h

theorem execLdVxMem_next (x : RegIdx) (s t : State) (h : execLdVxMem x s = .next t) :
    cellsExist s.I (x.val + 1) ∧ t = s.loadLowRegisters x := by
  unfold execLdVxMem at h
  split at h
  · next hc => exact ⟨hc, by simpa using h.symm⟩
  · cases h

/-- The canvas that `DRW` leaves. -/
def drawnCanvas (x y : RegIdx) (n : Fin 16) (s : State) : Canvas :=
  drawRows ((s.getV x).toNat % 64) ((s.getV y).toNat % 32) (s.mem.readBytes (effAddr s.I 0) n.val) ⟨s.fb, false⟩

theorem execDrw_eq (x y : RegIdx) (n : Fin 16) (s : State) (h : cellsExist s.I n.val) :
    execDrw x y n s = .next ((s.setFlag (drawnCanvas x y n s).hit).setFb (drawnCanvas x y n s).fb) := by
  unfold execDrw
  rw [if_pos h]
  rfl

theorem execDrw_next (x y : RegIdx) (n : Fin 16) (s t : State) (h : execDrw x y n s = .next t) :
    cellsExist s.I n.val ∧ t = (s.setFlag (drawnCanvas x y n s).hit).setFb (drawnCanvas x y n s).fb := by
  by_cases hc : cellsExist s.I n.val
  · rw [execDrw_eq x y n s hc] at h
    exact ⟨hc, by simpa using h.symm⟩
  · unfold execDrw at h
    rw [if_neg hc] at h
    cases h

/-- Register `r` is the byte `r` of the registers that `LD [I],Vx` stores (R130). -/
theorem State.getD_lowRegisters (s : State) (x r : RegIdx) (h : r ≤ x) : (s.lowRegisters x).getD r.val 0 = s.getV r := by
  have hr : r.val < x.val + 1 := Nat.lt_succ_of_le h
  simp [State.lowRegisters, State.getV, List.getD_eq_getElem?_getD, hr]

@[simp] theorem State.length_lowRegisters (s : State) (x : RegIdx) : (s.lowRegisters x).length = x.val + 1 := by
  simp [State.lowRegisters]

/-! ## The queue of inputs -/

/-- The state with another queue and another counter. -/
abbrev State.withQueue (s : State) (q : List StepInput) (n : Nat) : State := { s with inputs := q, draw := n }

theorem State.skipIf_withQueue (s : State) (q : List StepInput) (n : Nat) (c : Bool) :
    (s.withQueue q n).skipIf c = (s.skipIf c).withQueue q n := by cases c <;> rfl

theorem execSkp_withQueue (x : RegIdx) (s : State) (q : List StepInput) (n : Nat) :
    execSkp x (s.withQueue q n) = onNext (execSkp x s) fun t => t.withQueue q n := by
  have hx : keyIndex ((s.withQueue q n).getV x) = keyIndex (s.getV x) := rfl
  unfold execSkp
  rw [hx]
  cases keyIndex (s.getV x) with
  | none => rfl
  | some k => exact congrArg Host.Outcome.next (State.skipIf_withQueue s q n _)

theorem execSknp_withQueue (x : RegIdx) (s : State) (q : List StepInput) (n : Nat) :
    execSknp x (s.withQueue q n) = onNext (execSknp x s) fun t => t.withQueue q n := by
  have hx : keyIndex ((s.withQueue q n).getV x) = keyIndex (s.getV x) := rfl
  unfold execSknp
  rw [hx]
  cases keyIndex (s.getV x) with
  | none => rfl
  | some k => exact congrArg Host.Outcome.next (State.skipIf_withQueue s q n _)

/-- No instruction reads or writes the queue or the counter. -/
theorem exec_withQueue (i : Instr) (s : State) (q : List StepInput) (n : Nat) :
    exec i (s.withQueue q n) = onNext (exec i s) fun t => t.withQueue q n := by
  cases i
  case call nnn =>
    by_cases h : s.SP.val < 16 <;> simp [exec, execCall, State.pushReturn, h, onNext, raise, State.setPc]
  case ret => by_cases h : 0 < s.SP.val <;> simp [exec, execRet, State.popReturn, h, onNext, raise, State.setPc]
  case ldBVx =>
    by_cases h : cellsExist s.I 3 <;> simp only [exec, execLdBVx, h, if_true, if_false] <;> rfl
  case ldMemVx x =>
    by_cases h : cellsExist s.I (x.val + 1) <;> simp only [exec, execLdMemVx, h, if_true, if_false] <;> rfl
  case ldVxMem x =>
    by_cases h : cellsExist s.I (x.val + 1) <;> simp only [exec, execLdVxMem, h, if_true, if_false] <;> rfl
  case drw x y n =>
    by_cases h : cellsExist s.I n.val <;> simp only [exec, execDrw, h, if_true, if_false] <;> rfl
  case skp x => exact execSkp_withQueue x s q n
  case sknp x => exact execSknp_withQueue x s q n
  case ldVxK x =>
    simp only [exec, execLdVxK, State.lowestKey, State.keyHeld, onNext]
    split <;> rfl
  case seVxKk => exact congrArg Host.Outcome.next (State.skipIf_withQueue s q n _)
  case sneVxKk => exact congrArg Host.Outcome.next (State.skipIf_withQueue s q n _)
  case seVxVy => exact congrArg Host.Outcome.next (State.skipIf_withQueue s q n _)
  case sneVxVy => exact congrArg Host.Outcome.next (State.skipIf_withQueue s q n _)
  all_goals rfl

theorem onNext_onNext (r : Result) (j k : State → State) : onNext (onNext r j) k = onNext r fun t => k (j t) := by
  cases r <;> rfl

/-- Nor does a step with its arguments given. -/
theorem stepWith_withQueue (keys : Vector Bool 16) (rnd : Byte) (s : State) (q : List StepInput) (n : Nat) :
    stepWith keys rnd (s.withQueue q n) = onNext (stepWith keys rnd s) fun t => t.withQueue q n := by
  unfold stepWith
  cases hf : s.fetch with
  | none =>
    rw [cycle_of_no_fetch ((s.withQueue q n).withArgs keys rnd) hf, cycle_of_no_fetch (s.withArgs keys rnd) hf]
    rfl
  | some op =>
    rw [cycle_of_fetch ((s.withQueue q n).withArgs keys rnd) op hf, cycle_of_fetch (s.withArgs keys rnd) op hf]
    have he := exec_withQueue (decodeWord op) ((s.withArgs keys rnd).advance op) q n
    exact (congrArg (fun r => onNext r State.tickTimers) he).trans (by rw [onNext_onNext, onNext_onNext]; rfl)

/-- A step with `input` at the head of the queue is the step with these arguments. -/
theorem step_of_inputs (s : State) (input : StepInput) (rest : List StepInput) (h : s.inputs = input :: rest) :
    step s = onNext (stepWith input.keys input.rnd s) fun t => t.withQueue rest (s.draw + 1) := by
  rw [step_eq_stepWith]
  have hn : s.nextInput = input := by rw [State.nextInput, h]
  have ht : s.inputs.tail = rest := by rw [h]; rfl
  rw [hn, ht]
  exact stepWith_withQueue input.keys input.rnd s rest (s.draw + 1)

end Sys2Proof.Machine
end

