-- ==== Sys2Proof/Tests/Slice0.lean ====
section
/-! SUPPORT. Tests of one step each; their expected results are the vectors of spec/95_test_vectors.md (T<n>, S<n>) unless a
comment says otherwise. Then, for every obligation with hypotheses, a witness that meets them. -/

namespace Sys2Proof.Tests

set_option Elab.async false

open Sys2Proof.Machine Sys2Proof.Claims

/-! ## Helpers -/

/-- The vector of the keys listed. -/
def keysDown (ks : List KeyIdx) : Vector Bool 16 := Vector.ofFn fun k => decide (k ∈ ks)

/-- The reset state with the registers listed. -/
def regs (vs : List (RegIdx × Byte)) : State := vs.foldl (fun s v => s.setV v.1 v.2) State.reset

/-- The state with the memory cells listed. -/
def withCells (cells : List (Nat × Byte)) (s : State) : State :=
  cells.foldl (fun s c => s.setMem (s.mem.write c.1 c.2)) s

/-- One step of the word `w`, with the keys listed held and the random byte `rnd`. -/
def runKeys (w : Nat) (ks : List KeyIdx) (rnd : Byte) (s : State) : Result :=
  step (State.withFetchWord { s with inputs := [⟨keysDown ks, rnd⟩] } 16 w)

/-- One step of the word `w` with no key held. -/
def run (w : Nat) (s : State) : Result := runKeys w [] 0 s

/-- The result is a next state with the property. -/
def after (r : Result) (p : State → Bool) : Bool :=
  match r with
  | .next t => p t
  | .fault _ => false
  | .refused _ => false

/-- The result is the fault. -/
def faultsWith (r : Result) (f : Fault) : Bool :=
  match r with
  | .next _ => false
  | .fault g => g == f
  | .refused _ => false

/-- The pixels listed, column and row. -/
def pixels (t : State) (at' : List (Fin 64 × Fin 32)) : List Bool := at'.map fun p => pixelAt t.fb p.1 p.2

theorem exists_next (r : Result) (h : after r (fun _ => true) = true) : ∃ t, r = .next t := by
  cases r with
  | next t => exact ⟨t, rfl⟩
  | fault f => cases h
  | refused q => cases h

theorem after_next (r : Result) (p : State → Bool) (h : after r p = true) (t : State) (ht : r = .next t) : p t = true := by
  rw [ht] at h
  exact h

/-! ## Well-formedness: the one check, and terms it refuses (R79) -/

theorem test_wf_refuses_sys_with_low_nibble_0 : (Instr.sys 0x120).wf = false := by decide
theorem test_wf_refuses_sys_with_low_nibble_E : (Instr.sys 0x12E).wf = false := by decide
theorem test_wf_accepts_sys : (Instr.sys 0x123).wf = true := by decide

/-! ## Decode: one word for every constructor, written from the encodings of R74 and R76 -/

theorem test_decode_control : [0b0000_0000_1110_0000, 0b0000_0000_1110_1110, 0b0000_0001_0010_0011, 0b0001_1010_1011_1100, 0b0010_0011_0000_0000].map decodeWord =
    [.cls, .ret, .sys 0x123, .jp 0xABC, .call 0x300] := by decide +kernel

theorem test_decode_skips : [0b0011_0011_0010_1010, 0b0100_0011_0010_1010, 0b0101_0001_0010_0000, 0b1001_0001_0010_0000].map decodeWord =
    [.seVxKk 3 0x2A, .sneVxKk 3 0x2A, .seVxVy 1 2, .sneVxVy 1 2] := by decide +kernel

theorem test_decode_immediates : [0b0110_1010_1111_1111, 0b0111_0010_0000_0101, 0b1100_0001_0000_1111].map decodeWord =
    [.ldVxKk 10 0xFF, .addVxKk 2 0x05, .rnd 1 0x0F] := by decide +kernel

theorem test_decode_family8 : [0b1000_0001_0010_0000, 0b1000_0001_0010_0001, 0b1000_0001_0010_0010, 0b1000_0001_0010_0011, 0b1000_0001_0010_0100, 0b1000_0001_0010_0101, 0b1000_0001_0010_0110, 0b1000_0001_0010_0111, 0b1000_0001_0010_1110].map decodeWord =
    [.ldVxVy 1 2, .orVxVy 1 2, .andVxVy 1 2, .xorVxVy 1 2, .addVxVy 1 2, .subVxVy 1 2, .shrVx 1, .subnVxVy 1 2, .shlVx 1] := by decide +kernel

theorem test_decode_index_display : [0b1010_0010_0001_0000, 0b1011_0001_0010_0011, 0b1101_0001_0010_0101, 0b1110_0001_1001_1110, 0b1110_0001_1010_0001].map decodeWord =
    [.ldI 0x210, .jpV0 0x123, .drw 1 2 5, .skp 1, .sknp 1] := by decide +kernel

theorem test_decode_familyF : [0b1111_0001_0000_0111, 0b1111_0001_0000_1010, 0b1111_0001_0001_0101, 0b1111_0001_0001_1000, 0b1111_0001_0001_1110, 0b1111_0001_0010_1001, 0b1111_0001_0011_0011, 0b1111_0010_0101_0101, 0b1111_0010_0110_0101].map decodeWord =
    [.ldVxDt 1, .ldVxK 1, .ldDtVx 1, .ldStVx 1, .addIVx 1, .ldFVx 1, .ldBVx 1, .ldMemVx 2, .ldVxMem 2] := by decide +kernel

theorem test_decode_reserved : [0b1000_0001_0010_1000, 0b1110_1111_0000_0000, 0b1111_0001_1111_1111].map decodeWord =
    [.nopFamily8, .nopFamilyE, .nopFamilyF] := by decide +kernel

/-- Bytes are big-endian, and a byte string of fewer than two bytes is refused by name (R51, R70). -/
theorem test_decode_bytes : decode [0x61, 0x07, 0xFF] = .ok (.ldVxKk 1 0x07, [0xFF]) ∧ decode [0x61] = .error .truncated ∧
    decode [] = .error .truncated := by decide +kernel

theorem test_decodeTableWord : decodeTableWord 16 0xD125 = some (.drw 1 2 5) ∧ decodeTableWord 16 0x00EE = some .ret := by
  decide +kernel

/-- The canonical words of R79 for the instructions with ignored bits. -/
theorem test_encode_fillers : [Instr.cls, .ret, .seVxVy 1 2, .sneVxVy 1 2, .shrVx 1, .shlVx 1].map encode =
    [0x00E0, 0x00EE, 0x5120, 0x9120, 0x8106, 0x810E] := by decide +kernel

/-! ## One step per instruction -/

/-- T1. -/
theorem test_sys : after (run 0x0123 { State.reset with DT := 3, ST := 1 })
    (fun t => t.pc == 0x202 && t.DT == 2 && t.ST == 0) = true := by decide +kernel

/-- T2. -/
theorem test_nop_family_8 : after (run 0x8128 { regs [(1, 7), (2, 9), (15, 4)] with pc := 0x300 })
    (fun t => t.pc == 0x302 && [1, 2, 15].map t.getV == [7, 9, 4]) = true := by decide +kernel

/-- T3. -/
theorem test_nop_family_E : after (run 0xEF00 (regs [(15, 200)])) (fun t => t.pc == 0x202) = true := by decide +kernel

/-- T5. -/
theorem test_nop_family_F : after (run 0xF1FF State.reset) (fun t => t.pc == 0x202) = true := by decide +kernel

/-- T120. -/
theorem test_cls : after (run 0x00E0 { regs [(15, 1)] with fb := (State.reset.fb.set 0 true).set 2047 true })
    (fun t => pixels t [(0, 0), (63, 31)] == [false, false] && t.getV 15 == 1) = true := by decide +kernel

/-- T27: the slot keeps its value. -/
theorem test_ret : after (run 0x00EE { State.reset with SP := 1, stack := State.reset.stack.set 0 0x202, pc := 0x300 })
    (fun t => t.SP == 0 && t.pc == 0x202 && t.stack[0] == 0x202) = true := by decide +kernel

/-- T28. -/
theorem test_ret_empty : faultsWith (run 0x00EE State.reset) .stackUnderflow = true := by decide +kernel

/-- T23. -/
theorem test_jp : after (run 0x1001 State.reset) (fun t => t.pc == 0x001) = true := by decide +kernel

/-- T25. -/
theorem test_call : after (run 0x2300 { State.reset with SP := 15 })
    (fun t => t.stack[15] == 0x202 && t.SP == 16 && t.pc == 0x300) = true := by decide +kernel

/-- T26. -/
theorem test_call_full : faultsWith (run 0x2300 { State.reset with SP := 16 }) .stackOverflow = true := by decide +kernel

/-- T31. -/
theorem test_jpV0 : after (run 0xBFFF (regs [(0, 0xFF)])) (fun t => t.pc == 0x10FE) = true := by decide +kernel

/-- T32. -/
theorem test_jpV0_is_not_jpVx : after (run 0xB300 (regs [(0, 0x02), (3, 0x55)]))
    (fun t => t.pc == 0x302) = true := by decide +kernel

/-- T34. -/
theorem test_seVxKk_equal : after (run 0x332A (regs [(3, 0x2A)])) (fun t => t.pc == 0x204) = true := by decide +kernel

/-- T35. -/
theorem test_seVxKk_unequal : after (run 0x332A (regs [(3, 0x2B)])) (fun t => t.pc == 0x202) = true := by decide +kernel

/-- T36. -/
theorem test_sneVxKk_equal : after (run 0x432A (regs [(3, 0x2A)])) (fun t => t.pc == 0x202) = true := by decide +kernel

/-- T37. -/
theorem test_sneVxKk_unequal : after (run 0x432A (regs [(3, 0x00)]))
    (fun t => t.pc == 0x204) = true := by decide +kernel

/-- T9: the low nibble is ignored. -/
theorem test_seVxVy : after (run 0x5127 (regs [(1, 9), (2, 9)])) (fun t => t.pc == 0x204) = true := by decide +kernel

/-- T39. -/
theorem test_seVxVy_unequal : after (run 0x5120 (regs [(1, 9), (2, 8)]))
    (fun t => t.pc == 0x202) = true := by decide +kernel

/-- T10: the low nibble is ignored. -/
theorem test_sneVxVy : after (run 0x912F (regs [(1, 9), (2, 8)])) (fun t => t.pc == 0x204) = true := by decide +kernel

/-- T42. -/
theorem test_sneVxVy_equal : after (run 0x9120 (regs [(1, 9), (2, 9)]))
    (fun t => t.pc == 0x202) = true := by decide +kernel

/-- T50. -/
theorem test_ldVxKk : after (run 0x6AFF State.reset) (fun t => t.getV 10 == 0xFF) = true := by decide +kernel

/-- T53: no flag. -/
theorem test_addVxKk : after (run 0x7201 (regs [(2, 0xFF), (15, 1)]))
    (fun t => t.getV 2 == 0x00 && t.getV 15 == 1) = true := by decide +kernel

/-- T55. -/
theorem test_ldVxVy : after (run 0x8120 (regs [(2, 0x7C)])) (fun t => t.getV 1 == 0x7C) = true := by decide +kernel

/-- T56: no flag. -/
theorem test_orVxVy : after (run 0x8121 (regs [(1, 0x0F), (2, 0xF1), (15, 1)]))
    (fun t => t.getV 1 == 0xFF && t.getV 15 == 1) = true := by decide +kernel

/-- T57. -/
theorem test_andVxVy : after (run 0x8122 (regs [(1, 0x3C), (2, 0x0F)]))
    (fun t => t.getV 1 == 0x0C) = true := by decide +kernel

/-- T58. -/
theorem test_xorVxVy : after (run 0x8123 (regs [(1, 0xFF), (2, 0x0F)]))
    (fun t => t.getV 1 == 0xF0) = true := by decide +kernel

/-- S1, fourth row. -/
theorem test_addVxVy_carry : after (run 0x8124 (regs [(1, 0xF0), (2, 0x20)]))
    (fun t => t.getV 1 == 0x10 && t.getV 15 == 1) = true := by decide +kernel

/-- T62. -/
theorem test_addVxVy_flag_as_destination : after (run 0x8F14 (regs [(15, 0xF0), (1, 0x20)]))
    (fun t => t.getV 15 == 1) = true := by decide +kernel

/-- S2, second row. -/
theorem test_subVxVy_borrow : after (run 0x8125 (regs [(1, 0x10), (2, 0x20), (15, 1)]))
    (fun t => t.getV 1 == 0xF0 && t.getV 15 == 0) = true := by decide +kernel

/-- S2, third row: the flag is 0. -/
theorem test_subVxVy_equal : after (run 0x8125 (regs [(1, 7), (2, 7), (15, 1)]))
    (fun t => t.getV 1 == 0x00 && t.getV 15 == 0) = true := by decide +kernel

/-- T69. -/
theorem test_subnVxVy : after (run 0x8127 (regs [(1, 0x10), (2, 0x20)]))
    (fun t => t.getV 1 == 0x10 && t.getV 15 == 1) = true := by decide +kernel

/-- T70. -/
theorem test_subnVxVy_borrow : after (run 0x8127 (regs [(1, 0x20), (2, 0x10), (15, 1)]))
    (fun t => t.getV 1 == 0xF0 && t.getV 15 == 0) = true := by decide +kernel

/-- T11: the y field is ignored. -/
theorem test_shrVx : after (run 0x8176 (regs [(1, 0x05), (7, 0xFF)]))
    (fun t => [1, 15, 7].map t.getV == [0x02, 1, 0xFF]) = true := by decide +kernel

/-- T74. -/
theorem test_shrVx_flag : after (run 0x8F06 (regs [(15, 2)])) (fun t => t.getV 15 == 0) = true := by decide +kernel

/-- T76: the y field is ignored. -/
theorem test_shlVx : after (run 0x812E (regs [(1, 0x81), (2, 0x55)]))
    (fun t => [1, 15, 2].map t.getV == [0x02, 1, 0x55]) = true := by decide +kernel

/-- S3, seventh row. -/
theorem test_shlVx_no_flag : after (run 0x810E (regs [(1, 0x40), (15, 1)]))
    (fun t => t.getV 1 == 0x80 && t.getV 15 == 0) = true := by decide +kernel

/-- T77. -/
theorem test_rnd : after (runKeys 0xC10F [] 0xA7 State.reset) (fun t => t.getV 1 == 0x07) = true := by decide +kernel

/-- T80. -/
theorem test_rnd_into_flag : after (runKeys 0xCF55 [] 0xFF (regs [(15, 1)]))
    (fun t => t.getV 15 == 0x55) = true := by decide +kernel

/-- T91. -/
theorem test_ldI : after (run 0xAFFF { State.reset with I := 0xFFFF })
    (fun t => t.I == 0x0FFF) = true := by decide +kernel

/-- T94: 16-bit wrap. -/
theorem test_addIVx : after (run 0xF11E { regs [(1, 0x02)] with I := 0xFFFF })
    (fun t => t.I == 0x0001) = true := by decide +kernel

/-- T93: no flag, no wrap at 12 bits. -/
theorem test_addIVx_no_flag : after (run 0xF11E { regs [(1, 0x01)] with I := 0x0FFF })
    (fun t => t.I == 0x1000 && t.getV 15 == 0) = true := by decide +kernel

/-- T97. -/
theorem test_ldFVx : after (run 0xF129 (regs [(1, 0x0F)])) (fun t => t.I == 0x009B) = true := by decide +kernel

/-- T98. -/
theorem test_ldFVx_masked : after (run 0xF129 (regs [(1, 0x1A)])) (fun t => t.I == 0x0082) = true := by decide +kernel

/-- T104: the last legal address. -/
theorem test_ldBVx : after (run 0xF133 { regs [(1, 0x7B)] with I := 0xFFD })
    (fun t => t.mem.readBytes 0xFFD 3 == [1, 2, 3]) = true := by decide +kernel

/-- T105. -/
theorem test_ldBVx_range : faultsWith (run 0xF133 { regs [(1, 0x7B)] with I := 0xFFE }) .addressOutOfRange = true := by decide +kernel

/-- T106. -/
theorem test_ldMemVx : after (run 0xF255 { regs [(0, 0x11), (1, 0x22), (2, 0x33), (3, 0x44)] with I := 0x400 })
    (fun t => t.mem.readBytes 0x400 4 == [0x11, 0x22, 0x33, 0] && t.I == 0x400) = true := by decide +kernel

/-- T109. -/
theorem test_ldMemVx_range : faultsWith (run 0xFF55 { State.reset with I := 0xFF1 }) .addressOutOfRange = true := by decide +kernel

/-- T111: the font of the default table. -/
theorem test_ldVxMem : after (run 0xF465 { regs [(5, 0x77)] with I := 0x050 })
    (fun t => [0, 1, 2, 3, 4, 5].map t.getV == [0xF0, 0x90, 0x90, 0x90, 0xF0, 0x77]) = true := by decide +kernel

/-- T112. -/
theorem test_ldVxMem_range : faultsWith (run 0xF065 { State.reset with I := 0x1000 }) .addressOutOfRange = true := by decide +kernel

/-- T123. -/
theorem test_drw_wraps_the_origin : after (run 0xD011 { withCells [(0x300, 0x80)] (regs [(0, 70), (1, 33)]) with I := 0x300 })
    (fun t => pixels t [(5, 1), (6, 1), (7, 1)] == [false, true, false] && t.getV 15 == 0) = true := by decide +kernel

/-- T122, from the state after T121. -/
theorem test_drw_clips_and_collides : after (run 0xD211 { withCells [(0x300, 0xFF)] (regs [(0, 60), (2, 58)]) with
    I := 0x300, fb := (((State.reset.fb.set 60 true).set 61 true).set 62 true).set 63 true })
    (fun t => pixels t [(58, 0), (59, 0), (60, 0), (63, 0), (0, 1), (1, 1)] == [true, true, false, false, false, false] && t.getV 15 == 1) = true := by decide +kernel

/-- T147. -/
theorem test_skp_held : after (runKeys 0xE19E [10] 0 (regs [(1, 0x0A)]))
    (fun t => t.pc == 0x204) = true := by decide +kernel

/-- T151. -/
theorem test_skp_range : faultsWith (run 0xE19E (regs [(1, 0x10)])) .invalidKeyIndex = true := by decide +kernel

/-- T149. -/
theorem test_sknp_not_held : after (runKeys 0xE1A1 [3] 0 (regs [(1, 0x0A)]))
    (fun t => t.pc == 0x204) = true := by decide +kernel

/-- T150. -/
theorem test_sknp_held : after (runKeys 0xE1A1 [10] 0 (regs [(1, 0x0A)]))
    (fun t => t.pc == 0x202) = true := by decide +kernel

/-- T140. -/
theorem test_ldVxDt : after (run 0xF107 { State.reset with DT := 0x0A })
    (fun t => t.getV 1 == 0x0A && t.DT == 0x09) = true := by decide +kernel

/-- T142. -/
theorem test_ldDtVx : after (run 0xF115 (regs [(1, 5)])) (fun t => t.DT == 4) = true := by decide +kernel

/-- T145. -/
theorem test_ldStVx : after (run 0xF118 (regs [(1, 0xFF)])) (fun t => t.ST == 0xFE) = true := by decide +kernel

/-- T154. -/
theorem test_ldVxK_lowest : after (runKeys 0xF10A [3, 7] 0 State.reset)
    (fun t => t.getV 1 == 3 && t.pc == 0x202) = true := by decide +kernel

/-- T156. -/
theorem test_ldVxK_waits : after (run 0xF10A { regs [(1, 9)] with DT := 2 })
    (fun t => t.getV 1 == 9 && t.pc == 0x200 && t.DT == 1) = true := by decide +kernel

/-! ## Fetch, memory, reset, load -/

/-- T12. -/
theorem test_fetch_last_word : after (run 0x6107 { State.reset with pc := 4094 })
    (fun t => t.getV 1 == 7 && t.pc == 4096) = true := by decide +kernel

/-- T14. -/
theorem test_fetch_out_of_range : faultsWith (step { State.reset with pc := 4095, DT := 9 }) .addressOutOfRange = true := by decide +kernel

/-- T15. -/
theorem test_fetch_does_not_wrap : faultsWith (step { State.reset with pc := 0xFFFF }) .addressOutOfRange = true := by decide +kernel

/-- R29 and R180: the first and the last glyph, and cells beside them. -/
theorem test_reset_memory : State.reset.mem.readBytes 0x04F 6 = [0, 0xF0, 0x90, 0x90, 0x90, 0xF0] ∧
    State.reset.mem.readBytes 0x09B 6 = [0xF0, 0x80, 0xF0, 0x80, 0x80, 0] := by decide +kernel

/-- Equal memories are equal data: a byte written back to its reset value is not listed, and order does not matter. -/
theorem test_memory_is_canonical : Memory.write (Memory.write [] 0x050 0x12) 0x050 0xF0 = [] ∧
    Memory.write (Memory.write [] 7 1) 3 2 = Memory.write (Memory.write [] 3 2) 7 1 := by decide +kernel

/-- T173: a load leaves the pc and the timers as they were. -/
theorem test_loadProgram : after (loadProgram [0x12, 0x00] { State.reset with pc := 0x20A, DT := 7 })
    (fun t => t.mem.readBytes 0x200 2 == [0x12, 0x00] && t.pc == 0x20A && t.DT == 7) = true := by decide +kernel

/-- T16: a fetch at an odd address, `mem[0x203] ++ mem[0x204]`. -/
theorem test_fetch_odd : after (step { withCells [(0x200, 0x12), (0x201, 0x03), (0x202, 0x61), (0x203, 0x07)] State.reset with
    pc := 0x203 }) (fun t => t.pc == 0x205 && t.getV 1 == 0 && t.cur == 0x0700) = true := by decide +kernel

/-- The host's question: `withFetchWord` and `step` run exactly the word, even from a pc at which no fetch is possible. -/
theorem test_withFetchWord : after (step (State.withFetchWord { State.reset with pc := 0x1000 } 16 0x6107))
    (fun t => t.getV 1 == 7 && t.cur == 0x6107) = true := by decide +kernel
/-! ## Witnesses: for every obligation with hypotheses, a state and operands that meet them together -/

theorem witness_EncodedInstructionsDecodeBack : (Instr.sys 0xFFF).WellFormed ∧ (Instr.drw 1 2 15).WellFormed := by decide

theorem witness_IgnoredBitsMakeAliases : (famOf 0x0AB0 = 0x0 ∧ lowNibbleOf 0x0AB0 = 0x0) ∧
    (famOf 0x0ABE = 0x0 ∧ lowNibbleOf 0x0ABE = 0xE) := by decide

/-- The last fetchable pc. -/
theorem witness_ReservedWordsRunAsNoOps : ∃ s : State, s.pc.toNat ≤ 4094 ∧
    instrAtPc s ∈ [Instr.nopFamily8, .nopFamilyE, .nopFamilyF] :=
  ⟨withCells [(0xFFE, 0xE1), (0xFFF, 0x9F)] { State.reset with pc := 4094 }, by decide +kernel⟩

theorem witness_StepRunsTheDecodedInstruction : ∃ (s : State) (i : Instr), s.pc.toNat ≤ 4094 ∧
    decode (bytesAtPc s) = .ok (i, []) :=
  ⟨withCells [(0xFFE, 0x61), (0xFFF, 0x07)] { State.reset with pc := 4094 }, .ldVxKk 1 0x07, by decide +kernel⟩

theorem witness_StepFollowsTheFourPhases : (∃ s : State, 4096 ≤ s.pc.toNat + 1) ∧ ∃ s : State, s.pc.toNat + 1 < 4096 :=
  ⟨⟨{ State.reset with pc := 4095 }, by decide⟩, { State.reset with pc := 4094 }, by decide⟩

/-- One completed step; the witness of every statement whose only premise is a completed step. -/
theorem witness_step_completes : ∃ s t : State, step s = .next t :=
  ⟨State.reset.withFetchWord 16 0x6A02, exists_next _ (by decide +kernel)⟩

theorem witness_CurHoldsTheFetchedWord : ∃ s t : State, step s = .next t := witness_step_completes

/-- Both sides of `StepFaultsExactlyWhen`: the fetch, and an instruction's own condition. -/
theorem witness_StepFaultsExactlyWhen : 4095 ≤ ({ State.reset with pc := 4095 } : State).pc.toNat ∧
    ({ State.reset with pc := 4094 } : State).pc.toNat ≤ 4094 ∧ executeFault .ret State.reset = some .stackUnderflow := by
  decide

theorem witness_FaultLeavesTheState :
    (∃ s : State, (transact (.step (keysDown []) 0) s).1 = .fault .addressOutOfRange) ∧
    ∃ s : State, (transact (.loadProgram (List.replicate 3585 0)) s).1 = .fault .programTooLarge :=
  by
  have long : (List.replicate 3585 (0 : Byte)).length > Config.progMax := by rw [List.length_replicate]; decide
  refine ⟨⟨{ State.reset with pc := 4095 }, by decide +kernel⟩, State.reset, ?_⟩
  simp only [transact, loadProgram, if_pos long, raise, responseOf]

theorem witness_FaultRepeats : ∃ s : State, (transact (.step (keysDown []) 0) s).1 = .fault .stackUnderflow :=
  ⟨State.reset.withFetchWord 16 0x00EE, by decide +kernel⟩

theorem witness_LoadProgramCopiesTheImage : (List.replicate 3584 (0xAB : Byte)).length ≤ 3584 ∧
    3584 < (List.replicate 3585 (0xAB : Byte)).length := by
  rw [List.length_replicate, List.length_replicate]
  decide

theorem witness_BootGivesTheLaunchPremises : (List.replicate 3584 (0xAB : Byte)).length ≤ 3584 := by
  rw [List.length_replicate]

theorem reset_inv : State.reset.Inv := ⟨Memory.nil_wf, by decide +kernel, by decide⟩

theorem witness_StepKeepsTheInvariant : ∃ s t : State, s.Inv ∧ step s = .next t :=
  ⟨State.reset, (exists_next (step State.reset) (by decide +kernel)).imp fun _ h => ⟨reset_inv, h⟩⟩

theorem witness_ReachableStatesMeetTheInvariant : ∃ s : State, s.Inv ∧ Reachable s := ⟨State.reset, reset_inv, .reset⟩

/-- A `SYS` word and a reserved word at the last fetchable pc. -/
theorem witness_NoOpsDoNothing : (∃ (s : State) (nnn : Addr), s.pc.toNat ≤ 4094 ∧ instrAtPc s = .sys nnn) ∧
    ∃ s : State, s.pc.toNat ≤ 4094 ∧ instrAtPc s ∈ [Instr.nopFamily8, .nopFamilyE, .nopFamilyF] :=
  ⟨⟨withCells [(0xFFE, 0x01), (0xFFF, 0x23)] { State.reset with pc := 4094 }, 0x123, by decide +kernel⟩,
    withCells [(0xFFE, 0x81), (0xFFF, 0x28)] { State.reset with pc := 4094 }, by decide +kernel⟩

/-- `SP` 15 and 16. -/
theorem witness_CallSavesThePcAndJumps : ({ State.reset with SP := 15 } : State).SP.val < 16 ∧
    ({ State.reset with SP := 16 } : State).SP.val = 16 := by decide

/-- `SP` 1, 16 and 0. -/
theorem witness_RetTakesTheSavedPc : ({ State.reset with SP := 1 } : State).SP.val = (0 : Fin 16).val + 1 ∧
    ({ State.reset with SP := 16 } : State).SP.val = (15 : Fin 16).val + 1 ∧ State.reset.SP.val = 0 := by decide

theorem witness_CallThenRetResumes : ∃ s t u : State, exec (.call 0x300) s = .next t ∧ u.SP = t.SP ∧ u.stack = t.stack := by
  obtain ⟨t, ht⟩ := exists_next (exec (.call 0x300) State.reset) (by decide +kernel)
  exact ⟨State.reset, t, t, ht, rfl, rfl⟩

theorem witness_SixteenCallsThenOverflow : State.reset.SP.val = 0 ∧ (List.replicate 16 (0x200 : Addr)).length = 16 ∧
    ({ State.reset with SP := 16 } : State).SP.val = 16 := by decide

/-- A destination other than the flag, for the clause on the result in `AddSetsTheCarry`, `SubtractionsSetTheStrictFlag` and
`ShiftsMoveTheBitToTheFlag`. -/
theorem witness_result_register : (14 : RegIdx) ≠ 15 := by decide

theorem witness_RandomByteReachesRndAlone : ∀ x kk, Instr.addVxVy 1 2 ≠ .rnd x kk := by simp

/-- `I` at and past the last legal address. -/
theorem witness_DecimalDigitsAreStored : ({ State.reset with I := 4093 } : State).I.toNat ≤ 4093 ∧
    4093 < ({ State.reset with I := 4094 } : State).I.toNat := by decide

/-- `I + x` 4095 and 4096, with `x = 15`. -/
theorem witness_BlockStoreWritesTheRegisters : ({ State.reset with I := 0xFF0 } : State).I.toNat + (15 : RegIdx).val ≤ 4095 ∧
    4095 < ({ State.reset with I := 0xFF1 } : State).I.toNat + (15 : RegIdx).val := by decide

theorem witness_BlockLoadReadsTheRegisters : ({ State.reset with I := 0xFF0 } : State).I.toNat + (15 : RegIdx).val ≤ 4095 ∧
    4095 < ({ State.reset with I := 0xFF1 } : State).I.toNat + (15 : RegIdx).val := by decide

theorem witness_BlockStoreThenLoadRestores : ∃ s t u : State, exec (.ldMemVx 2) s = .next t ∧ u.mem = t.mem ∧ u.I = t.I := by
  obtain ⟨t, ht⟩ := exists_next (exec (.ldMemVx 2) { State.reset with I := 0x400 }) (by decide +kernel)
  exact ⟨_, t, t, ht, rfl, rfl⟩

/-- Three digits, and one register whose cell is the second byte of the last fetchable word; then a storing step. -/
theorem witness_StoresAreSeenByTheNextFetch :
    (∃ s t u : State, exec (.ldBVx 1) s = .next t ∧ u.mem = t.mem ∧ u.pc.toNat ≤ 4094) ∧
    (∃ s t u : State, exec (.ldMemVx 0) s = .next t ∧ u.mem = t.mem ∧ u.pc.toNat = 4094 ∧ s.I.toNat = 4095) ∧
    ∃ (s t : State) (keys : Vector Bool 16) (rnd : Byte), stepWith keys rnd s = .next t ∧ instrAtPc s = .ldMemVx 1 ∧
      t.pc.toNat ≤ 4094 := by
  obtain ⟨t, ht⟩ := exists_next (exec (.ldBVx 1) { State.reset with I := 0x400 }) (by decide +kernel)
  obtain ⟨v, hv⟩ := exists_next (exec (.ldMemVx 0) { State.reset with I := 0xFFF }) (by decide +kernel)
  have h : after (stepWith (keysDown []) 0 ((regs []).withFetchWord 16 0xF155)) (fun w => decide (w.pc.toNat ≤ 4094)) = true := by
    decide +kernel
  obtain ⟨w, hw⟩ := exists_next (stepWith (keysDown []) 0 ((regs []).withFetchWord 16 0xF155)) (by decide +kernel)
  exact ⟨⟨_, t, t.setPc 0x400, ht, rfl, show (0x400 : Word).toNat ≤ 4094 by decide⟩, ⟨_, v, v.setPc 0xFFE, hv, rfl, rfl, by decide⟩,
    _, w, _, _, hw, by decide +kernel, of_decide_eq_true (after_next _ _ h w hw)⟩

/-- No row at all, and the last legal address; a covered pixel and one that is not. -/
theorem witness_DrawTogglesTheCoveredPixels :
    ((0 : Fin 16).val = 0 ∨ ({ State.reset with I := 0xFFFF } : State).I.toNat + (0 : Fin 16).val - 1 ≤ 4095) ∧
    ({ State.reset with I := 0xFFF } : State).I.toNat + (1 : Fin 16).val - 1 ≤ 4095 ∧
    spriteCovers 0 1 1 { State.reset with I := 0x050 } 3 0 ∧ ¬spriteCovers 0 1 1 { State.reset with I := 0x050 } 3 31 := by
  refine ⟨by decide, by decide, ⟨0, 3, by decide +kernel⟩, ?_⟩
  rintro ⟨r, c, hr, _, hy, _⟩
  have hv : (State.getV { State.reset with I := 0x050 } 1).toNat % 32 = 0 := by decide +kernel
  rw [hv] at hy
  simp at hr hy
  omega

/-- A collision (the sprite row 0xF0 over a pixel that is on), a draw with no rows, and sprite bytes past the end. -/
theorem witness_DrawReportsTheCollision :
    (∃ s t : State, exec (.drw 0 1 1) s = .next t ∧ ∃ px py, pixelAt s.fb px py = true ∧ pixelAt t.fb px py = false) ∧
    (∃ s t : State, exec (.drw 0 1 0) s = .next t) ∧
    (1 ≤ (2 : Fin 16).val ∧ 4095 < ({ State.reset with I := 0xFFF } : State).I.toNat + (2 : Fin 16).val - 1) := by
  have h : after (exec (.drw 0 1 1) { State.reset with I := 0x050, fb := State.reset.fb.set 0 true })
      (fun t => pixelAt t.fb 0 0 == false) = true := by decide +kernel
  refine ⟨?_, ⟨State.reset, exists_next _ (by decide +kernel)⟩, by decide⟩
  obtain ⟨t, ht⟩ := exists_next (exec (.drw 0 1 1) { State.reset with I := 0x050, fb := State.reset.fb.set 0 true })
    (by decide +kernel)
  exact ⟨_, t, ht, 0, 0, by decide +kernel, by simpa using after_next _ _ h t ht⟩

theorem witness_DrawingTwiceRestores : ∃ s t u : State, exec (.drw 0 1 5) s = .next t ∧ u.fb = t.fb ∧ u.mem = s.mem ∧
    u.I = s.I ∧ u.getV 0 = s.getV 0 ∧ u.getV 1 = s.getV 1 := by
  obtain ⟨t, ht⟩ := exists_next (exec (.drw 0 1 5) { State.reset with I := 0x050 }) (by decide +kernel)
  exact ⟨{ State.reset with I := 0x050 }, t, { State.reset with I := 0x050, fb := t.fb }, ht, rfl, rfl, rfl, rfl, rfl⟩

theorem witness_TimerReadAndWrites : ∃ s u v : State, s.pc.toNat ≤ 4094 ∧ instrAtPc s = .ldVxDt 1 ∧ u.pc.toNat ≤ 4094 ∧
    instrAtPc u = .ldDtVx 1 ∧ v.pc.toNat ≤ 4094 ∧ instrAtPc v = .ldStVx 1 :=
  ⟨State.reset.withFetchWord 16 0xF107, State.reset.withFetchWord 16 0xF115, State.reset.withFetchWord 16 0xF118,
    by decide +kernel⟩

/-- Key numbers 15 and 16. -/
theorem witness_KeySkipsTestTheKey : ((regs [(1, 15)]).getV 1).toNat = (15 : KeyIdx).val ∧
    15 < ((regs [(1, 16)]).getV 1).toNat := by decide +kernel

theorem witness_KeyWaitTakesTheLowestKey :
    (∃ (s : State) (k : KeyIdx), s.keypad[k.val] = true ∧ ∀ j : KeyIdx, j < k → s.keypad[j.val] = false) ∧
    (∀ k : KeyIdx, State.reset.keypad[k.val] = false) ∧ ∃ s u : State, s.pc = (fetched u).pc :=
  ⟨⟨{ State.reset with keypad := keysDown [3, 7] }, 3, by decide +kernel⟩, by decide +kernel,
    fetched State.reset, State.reset, rfl⟩

theorem witness_KeypadReachesKeyInstructionsAlone :
    (∀ x, Instr.ldVxDt 1 ≠ .skp x ∧ Instr.ldVxDt 1 ≠ .sknp x ∧ Instr.ldVxDt 1 ≠ .ldVxK x) ∧
    ∃ s t : State, exec (.skp 0) s = .next t :=
  ⟨by simp, State.reset, exists_next _ (by decide +kernel)⟩

/-- A step that writes a timer, and one that does not. -/
theorem witness_EveryStepCountsTheTimersDown :
    (∃ s t : State, step s = .next t ∧ instrAtPc s = .ldDtVx 1) ∧ (∃ s t : State, step s = .next t ∧ instrAtPc s = .ldStVx 1) ∧
    ∃ s t : State, step s = .next t ∧ ∀ x, instrAtPc s ≠ .ldDtVx x ∧ instrAtPc s ≠ .ldStVx x := by
  refine ⟨⟨State.reset.withFetchWord 16 0xF115, ?_⟩, ⟨State.reset.withFetchWord 16 0xF118, ?_⟩, State.reset, ?_⟩
  · exact (exists_next _ (by decide +kernel)).imp fun _ h => ⟨h, by decide +kernel⟩
  · exact (exists_next _ (by decide +kernel)).imp fun _ h => ⟨h, by decide +kernel⟩
  · exact (exists_next _ (by decide +kernel)).imp fun _ h => ⟨h, by decide +kernel⟩

/-- Two steps of a jump to itself with `DT = 1`: the floor is reached. -/
theorem witness_DelayTimerCountsSteps : ∃ s t : State, NoDTWrite 2 s ∧ Sys2Proof.core.run 2 s = .next t := by
  let s : State := State.withFetchWord { State.reset with DT := 1 } 16 0x1200
  have h1 : instrAtPc s = .jp 0x200 := by decide +kernel
  have h2 : after (step s) (fun t => instrAtPc t == .jp 0x200) = true := by decide +kernel
  have h3 : after (Sys2Proof.core.run 2 s) (fun _ => true) = true := by decide +kernel
  obtain ⟨t, ht⟩ := exists_next _ h3
  refine ⟨s, t, ⟨?_, fun u hu => ⟨?_, fun _ _ => trivial⟩⟩, ht⟩
  · rw [h1]
    rintro ⟨x, hx⟩
    cases hx
  · rw [beq_iff_eq.1 (after_next _ _ h2 u hu)]
    rintro ⟨x, hx⟩
    cases hx

theorem witness_OnlyDisplayInstructionsWriteTheFramebuffer : ∃ (i : Instr) (s t : State), exec i s = .next t ∧ i ≠ .cls ∧
    ∀ x y n, i ≠ .drw x y n := ⟨.ldMemVx 15, State.reset, by
  obtain ⟨t, ht⟩ := exists_next (exec (.ldMemVx 15) State.reset) (by decide +kernel)
  exact ⟨t, ht, by simp, by simp⟩⟩

theorem witness_OnlyCallAndRetMoveTheStack : ∃ (i : Instr) (s t : State) (k : Fin 16), exec i s = .next t ∧
    (∀ nnn, i ≠ .call nnn) ∧ i ≠ .ret ∧ k.val ≠ s.SP.val := ⟨.jp 0x300, State.reset, _, 1, rfl, by simp, by simp, by decide⟩

theorem witness_OnlyThreeInstructionsWriteTheIndex : ∃ (i : Instr) (s t : State), exec i s = .next t ∧
    (∀ nnn, i ≠ .ldI nnn) ∧ (∀ x, i ≠ .addIVx x) ∧ ∀ x, i ≠ .ldFVx x := ⟨.ldVxMem 15, State.reset, by
  obtain ⟨t, ht⟩ := exists_next (exec (.ldVxMem 15) State.reset) (by decide +kernel)
  exact ⟨t, ht, by simp, by simp, by simp⟩⟩

theorem witness_OnlyTwoInstructionsStoreToMemory :
    (∃ (i : Instr) (s t : State), exec i s = .next t ∧ (∀ x, i ≠ .ldBVx x) ∧ ∀ x, i ≠ .ldMemVx x) ∧
    (∃ s t : State, exec (.ldBVx 1) s = .next t) ∧ ∃ s t : State, exec (.ldMemVx 1) s = .next t :=
  ⟨⟨.jp 0x300, State.reset, _, rfl, by simp, by simp⟩, ⟨State.reset, exists_next _ (by decide +kernel)⟩,
    State.reset, exists_next _ (by decide +kernel)⟩

/-- An instruction of the six, and one that is neither of them nor names register 15 as its destination. -/
theorem witness_FlagRegisterWriters : (∃ s t : State, exec (.addVxVy 1 2) s = .next t) ∧
    (∃ (i : Instr) (s t : State), exec i s = .next t ∧
      (∀ x y n, i ≠ .addVxVy x y ∧ i ≠ .subVxVy x y ∧ i ≠ .subnVxVy x y ∧ i ≠ .shrVx x ∧ i ≠ .shlVx x ∧ i ≠ .drw x y n) ∧
      (∀ kk, i ≠ .ldVxKk 15 kk ∧ i ≠ .addVxKk 15 kk ∧ i ≠ .rnd 15 kk) ∧
      (∀ y, i ≠ .ldVxVy 15 y ∧ i ≠ .orVxVy 15 y ∧ i ≠ .andVxVy 15 y ∧ i ≠ .xorVxVy 15 y) ∧
      i ≠ .ldVxDt 15 ∧ i ≠ .ldVxK 15 ∧ i ≠ .ldVxMem 15) :=
  ⟨⟨State.reset, _, rfl⟩, .ldVxKk 14 0xFF, State.reset, _, rfl, by simp, by simp, by simp, by simp, by simp, by simp⟩

theorem witness_SoundTimerIsWriteOnly : ∃ (i : Instr) (s t : State), (∀ x, i ≠ .ldStVx x) ∧ exec i s = .next t ∧
    ∀ x, i ≠ .ldDtVx x := ⟨.ldVxDt 1, State.reset, _, by simp, rfl, by simp⟩

/-- Two steps of a jump to itself: the run is safe and has `NoFault`; a load that is refused does not count (R183). -/
theorem witness_NoFaultOfStepsIsASafeRun : (∃ s : State, s.inputs.length = 2 ∧ SafeRun s.inputs.length s) ∧
    3584 < (List.replicate 3585 (0 : Byte)).length ∧ NoFault [.loadProgram (List.replicate 3585 0)] State.reset := by
  have load : ∀ bytes, NoFault [.loadProgram bytes] State.reset := by simp [NoFault, session]
  refine ⟨⟨State.withFetchWord { State.reset with inputs := [⟨keysDown [], 0⟩, ⟨keysDown [], 0⟩] } 16 0x1200, by decide +kernel,
    exists_next _ (by decide +kernel)⟩, ?_, load _⟩
  rw [List.length_replicate]
  decide

end Sys2Proof.Tests
end

