-- ==== Sys2Proof/Proofs/Scope.lean ====
section
/-! The reads of spec/00_scope.md R9 and the sound of spec/60_exceptions.md R168. -/

namespace Sys2Proof.Machine

@[simp] theorem transact_readFramebuffer (s : State) : transact .readFramebuffer s = (.framebuffer s.fb, s) := rfl

@[simp] theorem transact_readTimers (s : State) : transact .readTimers s = (.timers s.DT s.ST, s) := rfl

/-- The model compares the byte `ST` with 0, the spec its value with 0. -/
theorem soundActive_iff (s : State) : soundActive s = true ↔ 0 < s.ST.toNat := by
  rw [soundActive, bne_iff_ne, BitVec.toNat_ne]
  exact Nat.pos_iff_ne_zero.symm

/-- Settles O58: one equation per read, and the sound by the value of `ST`. -/
theorem hostReadsTheOutputs : Obligations.HostReadsTheOutputs := fun s =>
  ⟨transact_readFramebuffer s, transact_readTimers s, soundActive_iff s⟩

end Sys2Proof.Machine
end

