-- ==== Sys2Proof/Proofs/State.lean ====
section
/-! Who writes and who reads each field of the state (spec/10_state.md R21 to R28), and the invariant of R35: what a completed
instruction can have done is said once, in `Effect`, and every frame and the invariant are case splits on it. -/

namespace Sys2Proof.Machine

/-! ## What a completed instruction has done -/

/-- The instructions that write one register `x` and no flag; `LD Vx,[I]`, which writes several, is not among them. -/
def RegisterWrite (i : Instr) (x : RegIdx) : Prop :=
  (∃ kk, i = .ldVxKk x kk ∨ i = .addVxKk x kk ∨ i = .rnd x kk) ∨
    (∃ y, i = .ldVxVy x y ∨ i = .orVxVy x y ∨ i = .andVxVy x y ∨ i = .xorVxVy x y) ∨ i = .ldVxDt x ∨ i = .ldVxK x

/-- The five arithmetic instructions that write the flag after their result (R110). -/
def FlagArithmetic (i : Instr) (x y : RegIdx) : Prop :=
  i = .addVxVy x y ∨ i = .subVxVy x y ∨ i = .subnVxVy x y ∨ i = .shrVx x ∨ i = .shlVx x

theorem exec_flagArithmetic (i : Instr) (x y : RegIdx) (s : State) (h : FlagArithmetic i x y) :
    ∃ v f, exec i s = .next (s.setResultAndFlag x v f) := by
  rcases h with rfl | rfl | rfl | rfl | rfl <;> exact ⟨_, _, rfl⟩

/-- Everything that a completed instruction `i` can have done to `s`, by the operation on the state. A jump goes to an address
that `JP` or `JP V0` can form, or back over the instruction (`LD Vx,K`). -/
inductive Effect (s : State) : Instr → State → Prop where
  | nothing {i} : Effect s i s
  | jump {i} (v : Word) (hv : v.toNat ≤ 0x10FE ∨ v = s.pc - 2) : Effect s i (s.setPc v)
  | skip {i} (cond : Bool) : Effect s i (s.skipIf cond)
  | register {i} (x : RegIdx) (v : Byte) (hi : RegisterWrite i x) : Effect s i (s.setV x v)
  | resultAndFlag {i} (x y : RegIdx) (v : Byte) (f : Bool) (hi : FlagArithmetic i x y) :
      Effect s i (s.setResultAndFlag x v f)
  | call (nnn : Addr) (hs : s.SP.val < 16) : Effect s (.call nnn) { s with
      stack := s.stack.set s.SP.val s.pc hs, SP := ⟨s.SP.val + 1, Nat.succ_lt_succ hs⟩, pc := zextAddr nnn }
  | ret (hs : 0 < s.SP.val) (hb : s.SP.val - 1 < 16) :
      Effect s .ret { s with SP := ⟨s.SP.val - 1, Nat.lt_succ_of_lt hb⟩, pc := s.stack[s.SP.val - 1] }
  | clear (fb : Vector Bool 2048) : Effect s .cls (s.setFb fb)
  | draw (x y : RegIdx) (n : Fin 16) (f : Bool) (fb : Vector Bool 2048) : Effect s (.drw x y n) ((s.setFlag f).setFb fb)
  | index {i} (v : Word) (hi : (∃ nnn, i = .ldI nnn) ∨ (∃ x, i = .addIVx x) ∨ ∃ x, i = .ldFVx x) : Effect s i (s.setI v)
  | delayTimer (x : RegIdx) : Effect s (.ldDtVx x) (s.setDT (s.getV x))
  | soundTimer (x : RegIdx) : Effect s (.ldStVx x) (s.setST (s.getV x))
  | store {i} (bytes : List Byte) (hi : (∃ x, i = .ldBVx x) ∨ ∃ x, i = .ldMemVx x)
      (hb : effAddr s.I 0 + bytes.length ≤ Config.memSize) :
      Effect s i (s.setMem (s.mem.writeBytes (effAddr s.I 0) bytes))
  | loadRegisters (x : RegIdx) : Effect s (.ldVxMem x) (s.loadLowRegisters x)

theorem toNat_zextAddr_le (nnn : Addr) : (zextAddr nnn).toNat ≤ 0xFFF := by
  have := nnn.isLt
  simp only [zextAddr, BitVec.toNat_setWidth]
  omega

/-- `0xFFF + 0xFF` is the largest target of `JP V0,nnn` (R22). -/
theorem toNat_jumpV0_le (v : Byte) (nnn : Addr) : (zextByte v + zextAddr nnn).toNat ≤ 0x10FE := by
  have := v.isLt
  have := toNat_zextAddr_le nnn
  simp only [zextByte, BitVec.toNat_add, BitVec.toNat_setWidth]
  omega

theorem effAddr_add_le_of_cellsExist (i : Word) (count : Nat) (h : cellsExist i count) (hc : count ≠ 0) :
    effAddr i 0 + count ≤ Config.memSize := h.resolve_left hc

theorem execLdVxK_effect (x : RegIdx) (s t : State) (h : execLdVxK x s = .next t) : Effect s (.ldVxK x) t := by
  unfold execLdVxK at h
  split at h
  · cases h; exact .register x _ (by simp [RegisterWrite])
  · cases h; exact .jump _ (.inr rfl)

theorem exec_effect (i : Instr) (s t : State) (h : exec i s = .next t) : Effect s i t := by
  cases i with
  | sys | nopFamily8 | nopFamilyE | nopFamilyF => cases h; exact .nothing
  | jp nnn => cases h; exact .jump _ (.inl ((toNat_zextAddr_le nnn).trans (by decide)))
  | jpV0 nnn => cases h; exact .jump _ (.inl (toNat_jumpV0_le _ nnn))
  | seVxKk | sneVxKk | seVxVy | sneVxVy => cases h; exact .skip _
  | skp x => obtain ⟨cond, rfl⟩ := execSkp_next x s t h; exact .skip cond
  | sknp x => obtain ⟨cond, rfl⟩ := execSknp_next x s t h; exact .skip cond
  | ldVxKk x | addVxKk x | ldVxVy x | orVxVy x | andVxVy x | xorVxVy x | rnd x | ldVxDt x =>
    cases h; exact .register x _ (by simp [RegisterWrite])
  | ldVxK x => exact execLdVxK_effect x s t h
  | addVxVy x y | subVxVy x y | subnVxVy x y => cases h; exact .resultAndFlag x y _ _ (by simp [FlagArithmetic])
  | shrVx x | shlVx x => cases h; exact .resultAndFlag x x _ _ (by simp [FlagArithmetic])
  | call nnn => obtain ⟨hs, rfl⟩ := execCall_next nnn s t h; exact .call nnn hs
  | ret => obtain ⟨hs, hb, rfl⟩ := execRet_next s t h; exact .ret hs hb
  | cls => cases h; exact .clear _
  | drw x y n => obtain ⟨-, rfl⟩ := execDrw_next x y n s t h; exact .draw x y n _ _
  | ldI | addIVx | ldFVx => cases h; exact .index _ (by simp)
  | ldDtVx x => cases h; exact .delayTimer x
  | ldStVx x => cases h; exact .soundTimer x
  | ldBVx x =>
    obtain ⟨hc, rfl⟩ := execLdBVx_next x s t h
    exact .store _ (.inl ⟨x, rfl⟩) (effAddr_add_le_of_cellsExist s.I 3 hc (by decide))
  | ldMemVx x =>
    obtain ⟨hc, rfl⟩ := execLdMemVx_next x s t h
    refine .store _ (.inr ⟨x, rfl⟩) ?_
    rw [State.length_lowRegisters]
    exact effAddr_add_le_of_cellsExist s.I _ hc (Nat.succ_ne_zero _)
  | ldVxMem x => obtain ⟨-, rfl⟩ := execLdVxMem_next x s t h; exact .loadRegisters x

/-! ## Frames (R21, R23 to R28) -/

/-- Settles O52: of the effects, `CLS` and `DRW` alone touch the framebuffer. -/
theorem onlyDisplayInstructionsWriteTheFramebuffer : Obligations.OnlyDisplayInstructionsWriteTheFramebuffer := by
  intro i s t h hcls hdrw
  cases exec_effect i s t h with
  | clear => exact absurd rfl hcls
  | draw x y n => exact absurd rfl (hdrw x y n)
  | _ => simp

/-- Settles O54: the three instructions are the ones with the effect `index`. -/
theorem onlyThreeInstructionsWriteTheIndex : Obligations.OnlyThreeInstructionsWriteTheIndex := by
  intro i s t h hld hadd hfont
  cases exec_effect i s t h with
  | index v hi =>
    rcases hi with ⟨nnn, rfl⟩ | ⟨x, rfl⟩ | ⟨x, rfl⟩
    · exact absurd rfl (hld nnn)
    · exact absurd rfl (hadd x)
    · exact absurd rfl (hfont x)
  | _ => simp

/-- Settles O53: a call sets slot `SP`, a return moves `SP`, and no other effect touches the two. -/
theorem onlyCallAndRetMoveTheStack : Obligations.OnlyCallAndRetMoveTheStack := by
  intro i s t h
  cases exec_effect i s t h with
  | call nnn hs =>
    refine ⟨fun hcall => absurd rfl (hcall nnn), fun k hk => ?_, fun hcall => absurd rfl (hcall nnn)⟩
    dsimp only
    exact Vector.getElem_set_ne hs k.isLt (Ne.symm hk)
  | ret => exact ⟨fun _ => rfl, fun _ _ => rfl, fun _ hret => absurd rfl hret⟩
  | _ => simp

theorem flagByte_zero_or_one (f : Bool) : flagByte f = 0 ∨ flagByte f = 1 := by
  cases f <;> simp [flagByte]

theorem State.getV_flag_setResultAndFlag (s : State) (x : RegIdx) (v : Byte) (f : Bool) :
    (s.setResultAndFlag x v f).getV 15 = flagByte f := State.getV_setV_same (s.setV x v) vf _

theorem State.getV_flag_setFlag_setFb (s : State) (f : Bool) (fb : Vector Bool 2048) :
    ((s.setFlag f).setFb fb).getV 15 = flagByte f := State.getV_setV_same s vf _

/-- After a flag writer the flag is the flag it computed, for every operand register (D12, log 7). -/
theorem getV_flag_of_flagArithmetic (i : Instr) (x y : RegIdx) (s t : State) (hi : FlagArithmetic i x y)
    (h : exec i s = .next t) : t.getV 15 = 0 ∨ t.getV 15 = 1 := by
  obtain ⟨v, f, hvf⟩ := exec_flagArithmetic i x y s hi
  obtain rfl : s.setResultAndFlag x v f = t := Host.Outcome.next.inj (hvf.symm.trans h)
  rw [State.getV_flag_setResultAndFlag]
  exact flagByte_zero_or_one f

theorem getV_flag_of_drw (x y : RegIdx) (n : Fin 16) (s t : State) (h : exec (.drw x y n) s = .next t) :
    t.getV 15 = 0 ∨ t.getV 15 = 1 := by
  obtain ⟨-, rfl⟩ := execDrw_next x y n s t h
  rw [State.getV_flag_setFlag_setFb]
  exact flagByte_zero_or_one _

/-- Settles O56: the flag writers by what they write, every other effect by the registers it leaves. -/
theorem flagRegisterWriters : Obligations.FlagRegisterWriters := by
  intro i s t h
  constructor
  · rintro ⟨x, y, n, hi⟩
    obtain hi | rfl : FlagArithmetic i x y ∨ i = .drw x y n := by simpa only [FlagArithmetic, or_assoc] using hi
    · exact getV_flag_of_flagArithmetic i x y s t hi h
    · exact getV_flag_of_drw x y n s t h
  · intro hflag himm hreg hdt hkey hload
    cases exec_effect i s t h with
    | register x v hi =>
      refine State.getV_setV_ne s x 15 v ?_
      rintro rfl
      exact absurd hi (by simp [RegisterWrite, himm, hreg, hdt, hkey])
    | resultAndFlag x y v f hi => exact absurd hi (by simp [FlagArithmetic, hflag x y 0])
    | draw x y n => exact absurd rfl (hflag x y n).2.2.2.2.2
    | loadRegisters x =>
      rw [State.getV_loadLowRegisters, if_neg]
      intro hx
      obtain rfl : x = 15 := le_antisymm (Fin.le_last x) hx
      exact hload rfl
    | skip cond => exact State.getV_congr _ _ (State.skipIf_V s cond) 15
    | _ => rfl

theorem exec_keypad_eq (i : Instr) (s t : State) (h : exec i s = .next t) : t.keypad = s.keypad := by
  cases exec_effect i s t h <;> simp

theorem exec_ST_eq (i : Instr) (s t : State) (h : exec i s = .next t) (hi : ∀ x, i ≠ .ldStVx x) : t.ST = s.ST := by
  cases exec_effect i s t h with
  | soundTimer x => exact absurd rfl (hi x)
  | _ => simp

theorem exec_DT_eq (i : Instr) (s t : State) (h : exec i s = .next t) (hi : ∀ x, i ≠ .ldDtVx x) : t.DT = s.DT := by
  cases exec_effect i s t h with
  | delayTimer x => exact absurd rfl (hi x)
  | _ => simp

/-! ## Noninterference (R26, R27) -/

/-- Two results that complete under the same check, with corresponding states, correspond. -/
theorem eq_onNext_of_ite {r r' : Result} {k : State → State} {t : State} {f : Fault} (c : Prop) [Decidable c]
    (hr : r = if c then .next t else raise f) (hr' : r' = if c then .next (k t) else raise f) : r' = onNext r k := by
  subst hr hr'
  split <;> rfl

theorem execSkp_eq (x : RegIdx) (s : State) : execSkp x s =
    (keyIndex (s.getV x)).elim (raise .invalidKeyIndex) fun key => .next (s.skipIf (s.keyHeld key)) := by
  unfold execSkp
  cases keyIndex (s.getV x) <;> rfl

theorem execSknp_eq (x : RegIdx) (s : State) : execSknp x s =
    (keyIndex (s.getV x)).elim (raise .invalidKeyIndex) fun key => .next (s.skipIf (!s.keyHeld key)) := by
  unfold execSknp
  cases keyIndex (s.getV x) <;> rfl

/-- Two key skips on the same key number correspond when their skips do. -/
theorem eq_onNext_of_keyIndex {r r' : Result} {k : State → State} {t t' : KeyIdx → State} (o : Option KeyIdx)
    (hr : r = o.elim (raise .invalidKeyIndex) fun key => .next (t key))
    (hr' : r' = o.elim (raise .invalidKeyIndex) fun key => .next (t' key)) (ht : ∀ key, t' key = k (t key)) :
    r' = onNext r k := by
  subst hr hr'
  cases o with
  | none => rfl
  | some key => exact congrArg Host.Outcome.next (ht key)

/-- The state with its keypad, its sound timer and its random byte changed: three fields that most instructions ignore. -/
abbrev State.mapIgnored (s : State) (f : Vector Bool 16 → Vector Bool 16) (g h : Byte → Byte) : State :=
  { s with keypad := f s.keypad, ST := g s.ST, rnd := h s.rnd }

section

variable (s : State) (f : Vector Bool 16 → Vector Bool 16) (g h : Byte → Byte)

theorem State.skipIf_mapIgnored (cond : Bool) :
    (s.mapIgnored f g h).skipIf cond = (s.skipIf cond).mapIgnored f g h := by cases cond <;> rfl

theorem State.loadLowRegisters_mapIgnored (x : RegIdx) :
    (s.mapIgnored f g h).loadLowRegisters x = (s.loadLowRegisters x).mapIgnored f g h := by
  simp only [State.loadLowRegisters, State.getV]

theorem State.pushReturn_mapIgnored (v : Word) :
    (s.mapIgnored f g h).pushReturn v = (s.pushReturn v).map fun t => t.mapIgnored f g h := by
  by_cases hs : s.SP.val < 16 <;> simp [State.pushReturn, hs]

theorem State.popReturn_mapIgnored :
    (s.mapIgnored f g h).popReturn = s.popReturn.map fun p => (p.1, p.2.mapIgnored f g h) := by
  by_cases hs : 0 < s.SP.val <;> simp [State.popReturn, hs]

/-- An instruction ends the same way, but for the change itself, when each of the three fields is left as it is or is one that
the instruction does not use. -/
theorem exec_mapIgnored (i : Instr)
    (hf : f = id ∨ ∀ x, i ≠ .skp x ∧ i ≠ .sknp x ∧ i ≠ .ldVxK x) (hg : g = id ∨ ∀ x, i ≠ .ldStVx x)
    (hh : h = id ∨ ∀ x kk, i ≠ .rnd x kk) :
    exec i (s.mapIgnored f g h) = onNext (exec i s) fun t => t.mapIgnored f g h := by
  have skipIf_eq cond := State.skipIf_mapIgnored s f g h cond
  cases i with
  | skp x =>
    obtain rfl := hf.resolve_right fun hx => (hx x).1 rfl
    exact eq_onNext_of_keyIndex _ (execSkp_eq x s) (execSkp_eq x _) fun key => skipIf_eq (s.keyHeld key)
  | sknp x =>
    obtain rfl := hf.resolve_right fun hx => (hx x).2.1 rfl
    exact eq_onNext_of_keyIndex _ (execSknp_eq x s) (execSknp_eq x _) fun key => skipIf_eq (!s.keyHeld key)
  | ldVxK x =>
    obtain rfl := hf.resolve_right fun hx => (hx x).2.2 rfl
    have hkey : (s.mapIgnored id g h).lowestKey = s.lowestKey := rfl
    simp only [exec, execLdVxK, hkey]
    cases s.lowestKey <;> rfl
  | ldStVx x =>
    obtain rfl := hg.resolve_right fun hx => hx x rfl
    rfl
  | rnd x kk =>
    obtain rfl := hh.resolve_right fun hx => hx x kk rfl
    rfl
  | call nnn =>
    simp only [exec, execCall, State.pushReturn_mapIgnored]
    cases s.pushReturn s.pc <;> rfl
  | ret =>
    simp only [exec, execRet, State.popReturn_mapIgnored]
    cases s.popReturn <;> rfl
  | ldBVx x => exact eq_onNext_of_ite (cellsExist s.I 3) rfl rfl
  | ldMemVx x => exact eq_onNext_of_ite (cellsExist s.I (x.val + 1)) rfl rfl
  | ldVxMem x =>
    simp only [exec, execLdVxMem, State.loadLowRegisters_mapIgnored]
    exact eq_onNext_of_ite (cellsExist s.I (x.val + 1)) rfl rfl
  | drw x y n => exact eq_onNext_of_ite (cellsExist s.I n.val) rfl rfl
  | seVxKk | sneVxKk | seVxVy | sneVxVy => exact congrArg Host.Outcome.next (skipIf_eq _)
  | _ => rfl

end

/-- Settles O57: `ST` is ignored by `exec_mapIgnored`, and each timer has one writer among the effects. -/
theorem soundTimerIsWriteOnly : Obligations.SoundTimerIsWriteOnly :=
  ⟨fun i s v hi => exec_mapIgnored s id (fun _ => v) id i (.inl rfl) (.inr hi) (.inl rfl),
    fun i s t h => ⟨exec_ST_eq i s t h, exec_DT_eq i s t h⟩⟩

/-! ## What a step leaves, whatever it answers (R160) -/

/-- What holds of the state before a transaction and of every next state holds of the state that it leaves. -/
theorem faultState_of {P : State → Prop} (before : State) (r : Result) (hbefore : P before) (hnext : ∀ t, r = .next t → P t) :
    P (faultState before r) := by
  cases r with
  | next t => exact hnext t rfl
  | fault | refused => exact hbefore

theorem cycle_keypad_eq (s t : State) (h : cycle s = .next t) : t.keypad = s.keypad := by
  obtain ⟨op, u, -, hu, rfl⟩ := cycle_next s t h
  exact exec_keypad_eq (decodeWord op) (s.advance op) u hu

/-- Settles O49: the keypad is ignored by `exec_mapIgnored`, is in no effect, and stays through the cycle as the host wrote
it. -/
theorem keypadReachesKeyInstructionsAlone : Obligations.KeypadReachesKeyInstructionsAlone :=
  ⟨fun i s keys hi => exec_mapIgnored s (fun _ => keys) id id i (.inr hi) (.inl rfl) (.inl rfl), exec_keypad_eq,
    fun keys _ _ => faultState_of (P := fun t => t.keypad = keys) _ _ rfl fun t ht => cycle_keypad_eq _ t ht⟩

/-! ## The invariant (R35) -/

/-- Settles O17: memory lists no cell, no stack slot is taken, and the pc is 0x200. -/
theorem resetMeetsTheInvariant : Obligations.ResetMeetsTheInvariant :=
  ⟨Memory.nil_wf, fun _ hk => absurd hk (Nat.not_lt_zero _), by decide⟩

/-- What holds when the execute phase begins (R22): the invariant, and a pc that a fetch has moved past a word. -/
def State.ExecuteInv (s : State) : Prop := s.Inv ∧ 2 ≤ s.pc.toNat ∧ s.pc.toNat ≤ 4096

theorem State.executeInv_advance (s : State) (op : Word) (h : s.Inv) (hf : s.fetch = some op) : (s.advance op).ExecuteInv := by
  obtain ⟨hmem, hstack, -⟩ := h
  obtain ⟨hfetch, -⟩ := State.fetch_some s op hf
  have hpc := State.toNat_advance_pc s op hfetch
  exact ⟨⟨hmem, hstack, by omega⟩, by omega, by omega⟩

theorem State.toNat_skipIf_pc_le (s : State) (cond : Bool) (h : s.pc.toNat ≤ 4096) : (s.skipIf cond).pc.toNat ≤ 0x10FE := by
  rw [State.skipIf_pc]
  split
  · rw [Word.toNat_add_two]
    omega
  · omega

/-- The strengthened step: from the start of an execute phase every effect ends in the invariant. -/
theorem Effect.inv {s t : State} {i : Instr} (h : Effect s i t) (hs : s.ExecuteInv) : t.Inv := by
  obtain ⟨⟨hmem, hstack, hpc⟩, hlow, hhigh⟩ := hs
  cases h with
  | jump v hv =>
    refine ⟨hmem, hstack, ?_⟩
    rcases hv with hv | rfl
    · exact hv
    · rw [State.setPc_pc, Word.toNat_sub_two]
      omega
  | skip cond => exact ⟨by simpa using hmem, by simpa using hstack, State.toNat_skipIf_pc_le s cond hhigh⟩
  | call nnn hsp =>
    refine ⟨hmem, fun k hk => ?_, (toNat_zextAddr_le nnn).trans (by decide)⟩
    simp only [Vector.getElem_set]
    split
    · exact hhigh
    · exact hstack k (by dsimp only at hk; omega)
  | ret hsp hb =>
    exact ⟨hmem, fun k hk => hstack k (hk.trans_le (Nat.sub_le _ _)),
      (hstack ⟨s.SP.val - 1, hb⟩ (Nat.sub_one_lt_of_lt hsp)).trans (by decide)⟩
  | store bytes _ hb => exact ⟨Memory.writeBytes_wf _ _ _ hmem (.inr hb), hstack, hpc⟩
  | _ => exact ⟨by simpa using hmem, by simpa using hstack, by simpa using hpc⟩

theorem cycle_inv (s t : State) (hs : s.Inv) (h : cycle s = .next t) : t.Inv := by
  obtain ⟨op, u, hf, hu, rfl⟩ := cycle_next s t h
  exact (exec_effect _ _ _ hu).inv (State.executeInv_advance s op hs hf)

/-- Settles O18: the step is the cycle after a write of arguments that the invariant does not speak of. -/
theorem stepKeepsTheInvariant : Obligations.StepKeepsTheInvariant := fun s t hs h => cycle_inv s.latchInput t hs h

theorem loadProgram_inv (bytes : List Byte) (s t : State) (hs : s.Inv) (h : loadProgram bytes s = .next t) : t.Inv := by
  obtain ⟨hmem, hstack, hpc⟩ := hs
  unfold loadProgram at h
  split at h
  · cases h
  · next hlen =>
    cases h
    refine ⟨Memory.writeBytes_wf _ _ _ hmem (.inr ?_), hstack, hpc⟩
    simp only [Config.progBase, Config.progMax, Config.memSize] at *
    omega

theorem transact_inv (q : Transaction) (s : State) (hs : s.Inv) : (transact q s).2.Inv := by
  cases q with
  | reset => exact resetMeetsTheInvariant
  | loadProgram bytes => exact faultState_of _ _ hs fun t => loadProgram_inv bytes s t hs
  | step keys rnd => exact faultState_of _ _ hs fun t => cycle_inv (s.withArgs keys rnd) t hs
  | readFramebuffer | readTimers => exact hs

/-- Settles O19, by induction on how the state was reached. -/
theorem reachableStatesMeetTheInvariant : Obligations.ReachableStatesMeetTheInvariant := by
  refine ⟨transact_inv, fun s h => ?_⟩
  induction h with
  | reset => exact resetMeetsTheInvariant
  | transact q s _ ih => exact transact_inv q s ih

end Sys2Proof.Machine
end

section
/-! Main memory and the fetch (spec/20_memory.md): which bytes a completed instruction stores is said once, in `exec_mem`; the
frame of memory and the coherence of the fetch with stores follow from it. -/

namespace Sys2Proof.Machine

open Sys2Proof.Claims

/-! ## What a completed instruction stores (R50, R128, R130) -/

theorem storedBytes_ldMemVx (x : RegIdx) (s : State) : storedBytes (.ldMemVx x) s = s.lowRegisters x := by
  refine List.ext_getElem (by simp [storedBytes]) fun k hk _ => ?_
  simp only [storedBytes, State.lowRegisters, State.getV, List.getElem_ofFn, List.getElem_take, Vector.getElem_toList]

/-- Which bytes are stored depends on the registers alone. -/
theorem storedBytes_congr (i : Instr) (s t : State) (h : t.V = s.V) : storedBytes i t = storedBytes i s := by
  cases i <;> simp only [storedBytes, State.getV, h]

theorem exec_mem_eq (i : Instr) (s t : State) (h : exec i s = .next t) (hdigits : ∀ x, i ≠ .ldBVx x)
    (hblock : ∀ x, i ≠ .ldMemVx x) : t.mem = s.mem := by
  cases exec_effect i s t h with
  | store bytes hi =>
    rcases hi with ⟨x, rfl⟩ | ⟨x, rfl⟩
    · exact absurd rfl (hdigits x)
    · exact absurd rfl (hblock x)
  | _ => simp

/-- The memory that any completed instruction leaves. -/
theorem exec_mem (i : Instr) (s t : State) (h : exec i s = .next t) :
    t.mem = s.mem.writeBytes (effAddr s.I 0) (storedBytes i s) := by
  cases i with
  | ldBVx x =>
    obtain ⟨-, rfl⟩ := execLdBVx_next x s t h
    rfl
  | ldMemVx x =>
    obtain ⟨-, rfl⟩ := execLdMemVx_next x s t h
    rw [storedBytes_ldMemVx, State.setMem_mem]
  | _ => exact exec_mem_eq _ s t h nofun nofun

theorem exec_sameOutside (i : Instr) (s t : State) (h : exec i s = .next t) :
    SameOutside s t (storedBytes i s).length := by
  intro a ha
  rw [exec_mem i s t h]
  exact Memory.read_writeBytes_outside _ _ _ _ ha

/-- Settles O55: the frame of `exec_mem`, with three digits or `x + 1` registers stored. -/
theorem onlyTwoInstructionsStoreToMemory : Obligations.OnlyTwoInstructionsStoreToMemory := by
  intro i s t h
  have outside := exec_sameOutside i s t h
  refine ⟨exec_mem_eq i s t h, ?_, ?_⟩
  · rintro x rfl
    exact outside
  · rintro x rfl
    rwa [storedBytes_ldMemVx, State.length_lowRegisters] at outside

/-! ## The latch of the fetched word (R30, R51) -/

theorem exec_cur_eq (i : Instr) (s t : State) (h : exec i s = .next t) : t.cur = s.cur := by
  cases exec_effect i s t h <;> simp

theorem cycle_cur (s t : State) (h : cycle s = .next t) :
    t.cur = s.mem.read s.pc.toNat ++ s.mem.read (s.pc.toNat + 1) := by
  obtain ⟨op, u, hf, hu, rfl⟩ := cycle_next s t h
  exact (exec_cur_eq _ _ _ hu).trans (State.fetch_some s op hf).2

/-- Big-endian: the byte at the lower address counts 256 times. -/
theorem Byte.toNat_append (hi lo : Byte) : (hi ++ lo).toNat = hi.toNat * 256 + lo.toNat := by
  rw [BitVec.toNat_append, ← Nat.shiftLeft_add_eq_or_of_lt lo.isLt, Nat.shiftLeft_eq]

/-- Settles O9: the execute phase leaves the latch as the fetch set it. -/
theorem curHoldsTheFetchedWord : Obligations.CurHoldsTheFetchedWord := by
  intro s t h
  have hcur := cycle_cur s.latchInput t h
  rw [hcur]
  exact Byte.toNat_append _ _

/-! ## The fetch sees the stores before it (R53, R57, R59) -/

theorem exec_read (i : Instr) (s t : State) (h : exec i s = .next t) (a : Nat) : t.mem.read a = byteAfter i s a := by
  rw [exec_mem i s t h]
  exact Memory.read_writeBytes _ _ _ _

theorem wordAfter_congr (i : Instr) (s t : State) (hV : t.V = s.V) (hI : t.I = s.I) (hmem : t.mem = s.mem) (a : Nat) :
    wordAfter i t a = wordAfter i s a := by
  simp only [wordAfter, byteAfter, storedBytes_congr i s t hV, hI, hmem]

/-- A step with a fetchable pc runs the word at the pc. -/
theorem stepWith_of_word (keys : Vector Bool 16) (rnd : Byte) (s : State) (w : Word) (hpc : s.pc.toNat ≤ 4094)
    (hw : w = s.mem.read s.pc.toNat ++ s.mem.read (s.pc.toNat + 1)) : stepWith keys rnd s =
      onNext (exec (decodeWord w) { s with keypad := keys, rnd := rnd, cur := w, pc := s.pc + 2 }) ticked := by
  subst hw
  exact cycle_of_fetch (s.withArgs keys rnd) _ (State.fetch_eq_some s hpc)

/-- A step from the memory that a completed instruction left runs the word its stored bytes make. -/
theorem stepWith_after_exec (i : Instr) (s t u : State) (keys : Vector Bool 16) (rnd : Byte) (h : exec i s = .next t)
    (hmem : u.mem = t.mem) (hpc : u.pc.toNat ≤ 4094) : stepWith keys rnd u =
      onNext (exec (decodeWord (wordAfter i s u.pc.toNat))
        { u with keypad := keys, rnd := rnd, cur := wordAfter i s u.pc.toNat, pc := u.pc + 2 }) ticked :=
  stepWith_of_word keys rnd u _ hpc (by rw [hmem, exec_read i s t h, exec_read i s t h]; rfl)

theorem stepWith_next (keys : Vector Bool 16) (rnd : Byte) (s t : State) (h : stepWith keys rnd s = .next t) :
    ∃ u, exec (instrAtPc s) (fetched (s.withArgs keys rnd)) = .next u ∧ t = ticked u := by
  obtain ⟨op, u, hf, hu, rfl⟩ := cycle_next (s.withArgs keys rnd) t h
  obtain ⟨-, rfl⟩ := State.fetch_some _ op hf
  exact ⟨u, hu, rfl⟩

/-- Settles O41: the next step of the machine is a step from the memory that the execute phase of the step before left. -/
theorem storesAreSeenByTheNextFetch : Obligations.StoresAreSeenByTheNextFetch := by
  refine ⟨stepWith_after_exec, fun s t keys keys' rnd rnd' h hpc => ?_⟩
  obtain ⟨u, hu, rfl⟩ := stepWith_next keys rnd s t h
  rw [← wordAfter_congr (instrAtPc s) s (fetched (s.withArgs keys rnd)) rfl rfl rfl]
  exact stepWith_after_exec _ _ u (ticked u) keys' rnd' hu rfl hpc

end Sys2Proof.Machine
end

section
/-! The decoder and the encoder (spec/30_encoding.md): which words stand for an instruction is said once, in `Instr.HasWord`;
the round trip, the opcode map, the ignored bits and the reserved words follow from it. -/

namespace Sys2Proof

/-! ## The encoder's word decodes back (R71, R74, R79) -/

theorem wellFormed_sys_iff (nnn : Addr) :
    (Instr.sys nnn).WellFormed ↔ nnn.extractLsb' 0 4 ≠ 0x0#4 ∧ nnn.extractLsb' 0 4 ≠ 0xE#4 := by
  simp only [Instr.WellFormed, Instr.wf, sysOperandOk, Bool.and_eq_true, bne_iff_ne]

theorem decodeWord_encode (i : Instr) (hi : i.WellFormed) : decodeWord (encode i) = i := by
  cases i with
  | cls | ret | nopFamily8 | nopFamilyE | nopFamilyF => rfl
  | sys nnn =>
    obtain ⟨hcls, hret⟩ := (wellFormed_sys_iff nnn).1 hi
    -- `hcls` and `hret` rule out the first two arms of family 0
    simp [encode, decodeWord, decodeFamily0]
  | jp | call | ldI | jpV0 => simp [encode, decodeWord]
  | seVxKk | sneVxKk | ldVxKk | addVxKk | rnd => simp [encode, decodeWord]
  | seVxVy | sneVxVy | drw => simp [encode, decodeWord]
  | ldVxVy | orVxVy | andVxVy | xorVxVy | addVxVy | subVxVy | shrVx | subnVxVy | shlVx =>
    simp [encode, decodeWord, decodeFamily8]
  | skp | sknp => simp [encode, decodeWord, decodeFamilyE]
  | ldVxDt | ldVxK | ldDtVx | ldStVx | addIVx | ldFVx | ldBVx | ldMemVx | ldVxMem =>
    simp [encode, decodeWord, decodeFamilyF]

/-- Settles O1: the two bytes are put together to the encoded word, which decodes back. -/
theorem encodedInstructionsDecodeBack : Obligations.EncodedInstructionsDecodeBack := fun i rest hi => by
  rw [encodeBytes, decode_bytesOfWord, decodeWord_encode i hi]

/-- Settles O6: the decoder evaluated on nineteen literal words. -/
theorem sampleWordsDecode : Obligations.SampleWordsDecode := by
  unfold Obligations.SampleWordsDecode
  decide

/-! ## The words of an instruction (R76, R77) -/

/-- The selectors that family 8 defines (R124). -/
def definedSelectors8 : List (BitVec 4) := [0x0#4, 0x1#4, 0x2#4, 0x3#4, 0x4#4, 0x5#4, 0x6#4, 0x7#4, 0xE#4]

/-- The low bytes that family E defines (R73). -/
def definedBytesE : List Byte := [0x9E#8, 0xA1#8]

/-- The low bytes that family F defines (R73). -/
def definedBytesF : List Byte := [0x07#8, 0x0A#8, 0x15#8, 0x18#8, 0x1E#8, 0x29#8, 0x33#8, 0x55#8, 0x65#8]

/-- `w` is a word of `i`: the word that the encoder emits, one that differs from it in ignored bits (R77), or, for the reserved
no-ops, any word with an undefined selector (R76). -/
inductive Instr.HasWord (w : Word) : Instr → Prop where
  | encoded {i} (hi : i.WellFormed) (hw : encode i = w) : HasWord w i
  | cls (hf : famOf w = 0x0) (hn : lowNibbleOf w = 0x0) : HasWord w .cls
  | ret (hf : famOf w = 0x0) (hn : lowNibbleOf w = 0xE) : HasWord w .ret
  | seVxVy (hf : famOf w = 0x5) : HasWord w (.seVxVy (xOf w) (yOf w))
  | sneVxVy (hf : famOf w = 0x9) : HasWord w (.sneVxVy (xOf w) (yOf w))
  | shrVx (hf : famOf w = 0x8) (hn : lowNibbleOf w = 0x6) : HasWord w (.shrVx (xOf w))
  | shlVx (hf : famOf w = 0x8) (hn : lowNibbleOf w = 0xE) : HasWord w (.shlVx (xOf w))
  | nopFamily8 (hf : famOf w = 0x8) (hn : lowNibbleOf w ∉ definedSelectors8) : HasWord w .nopFamily8
  | nopFamilyE (hf : famOf w = 0xE) (hk : kkOf w ∉ definedBytesE) : HasWord w .nopFamilyE
  | nopFamilyF (hf : famOf w = 0xF) (hk : kkOf w ∉ definedBytesF) : HasWord w .nopFamilyF

section

variable {w : Word} {f : BitVec 4}

theorem encodeA_of_famOf (hf : famOf w = f) : encodeA f (nnnOf w) = w := hf ▸ encodeA_fields w

theorem encodeXK_of_famOf (hf : famOf w = f) : encodeXK f (xOf w) (kkOf w) = w := hf ▸ encodeXK_fields w

theorem encodeXK_of_kkOf {kk : Byte} (hf : famOf w = f) (hk : kkOf w = kk) : encodeXK f (xOf w) kk = w :=
  hk ▸ encodeXK_of_famOf hf

theorem encodeXYN_of_famOf (hf : famOf w = f) : encodeXYN f (xOf w) (yOf w) (idxNibble (nOf w)) = w :=
  hf ▸ encodeXYN_fields w

theorem encodeXYN_of_lowNibbleOf {n : BitVec 4} (hf : famOf w = f) (hn : lowNibbleOf w = n) :
    encodeXYN f (xOf w) (yOf w) n = w := hn ▸ encodeXYN_of_famOf hf

end

theorem lowNibbleOf_eq_extract_nnnOf (w : Word) : lowNibbleOf w = (nnnOf w).extractLsb' 0 4 := by
  rw [← lowNibbleOf_encodeA (famOf w), encodeA_fields]

theorem decodeFamily0_hasWord (w : Word) (hf : famOf w = 0x0) : (decodeFamily0 w).HasWord w := by
  unfold decodeFamily0
  split
  case h_1 hn => exact .cls hf hn
  case h_2 hn => exact .ret hf hn
  case h_3 hcls hret =>
    rw [lowNibbleOf_eq_extract_nnnOf] at hcls hret
    exact .encoded ((wellFormed_sys_iff _).2 ⟨hcls, hret⟩) (encodeA_of_famOf hf)

/-- The two shifts ignore `y`, the last arm has no defined selector, and every other arm fixes or reads every bit. -/
theorem decodeFamily8_hasWord (w : Word) (hf : famOf w = 0x8) : (decodeFamily8 w).HasWord w := by
  unfold decodeFamily8
  split
  case h_7 hn => exact .shrVx hf hn
  case h_9 hn => exact .shlVx hf hn
  case h_10 => exact .nopFamily8 hf (by simp_all [definedSelectors8])
  all_goals next hn => exact .encoded rfl (encodeXYN_of_lowNibbleOf hf hn)

theorem decodeFamilyE_hasWord (w : Word) (hf : famOf w = 0xE) : (decodeFamilyE w).HasWord w := by
  unfold decodeFamilyE
  split
  case h_3 => exact .nopFamilyE hf (by simp_all [definedBytesE])
  all_goals next hk => exact .encoded rfl (encodeXK_of_kkOf hf hk)

theorem decodeFamilyF_hasWord (w : Word) (hf : famOf w = 0xF) : (decodeFamilyF w).HasWord w := by
  unfold decodeFamilyF
  split
  case h_10 => exact .nopFamilyF hf (by simp_all [definedBytesF])
  all_goals next hk => exact .encoded rfl (encodeXK_of_kkOf hf hk)

/-- The decoder's sixteen arms: the four compound families, the two that ignore the low nibble, and the others by format.
The last arm is family F, as the fifteen before it leave no other. -/
theorem decodeWord_hasWord (w : Word) : (decodeWord w).HasWord w := by
  unfold decodeWord
  split
  case h_1 hf => exact decodeFamily0_hasWord w hf
  case h_9 hf => exact decodeFamily8_hasWord w hf
  case h_15 hf => exact decodeFamilyE_hasWord w hf
  case h_16 => exact decodeFamilyF_hasWord w (by rcases nibble_cases (famOf w) <;> simp_all)
  case h_6 hf => exact .seVxVy hf
  case h_10 hf => exact .sneVxVy hf
  case h_14 hf => exact .encoded rfl (encodeXYN_of_famOf hf)
  case h_2 hf | h_3 hf | h_11 hf | h_12 hf => exact .encoded rfl (encodeA_of_famOf hf)
  all_goals next hf => exact .encoded rfl (encodeXK_of_famOf hf)

theorem Instr.HasWord.wellFormed {i : Instr} {w : Word} (h : i.HasWord w) : i.WellFormed := by
  cases h with
  | encoded hi => exact hi
  | _ => rfl

theorem Instr.HasWord.decodeWord_eq {i : Instr} {w : Word} (h : i.HasWord w) : decodeWord w = i := by
  cases h with
  | encoded hi hw => rw [← hw, decodeWord_encode i hi]
  | cls hf hn | ret hf hn => simp [decodeWord, decodeFamily0, hf, hn]
  | seVxVy hf | sneVxVy hf => simp [decodeWord, hf]
  | shrVx hf hn | shlVx hf hn => simp [decodeWord, decodeFamily8, hf, hn]
  | nopFamily8 hf hn | nopFamilyE hf hn | nopFamilyF hf hn =>
    simp only [definedSelectors8, definedBytesE, definedBytesF, List.mem_cons, not_or] at hn
    simp [decodeWord, decodeFamily8, decodeFamilyE, decodeFamilyF, hf, hn]

/-- The decoder, said once: it answers the instruction that the word is a word of, and there is no other. -/
theorem decodeWord_eq_iff (w : Word) (i : Instr) : decodeWord w = i ↔ i.HasWord w :=
  ⟨fun h => h ▸ decodeWord_hasWord w, Instr.HasWord.decodeWord_eq⟩

/-! ## The opcode map (R73, R74, R76) -/

/-- The family `EncodeInRow` as one fact. -/
theorem firstRowOf_encode (i : Instr) : Laws.EncodeInRow.Statement i :=
  match i with
  | .cls => Laws.EncodeInRow.cls
  | .ret => Laws.EncodeInRow.ret
  | .sys nnn => Laws.EncodeInRow.sys nnn
  | .jp nnn => Laws.EncodeInRow.jp nnn
  | .call nnn => Laws.EncodeInRow.call nnn
  | .seVxKk x kk => Laws.EncodeInRow.seVxKk x kk
  | .sneVxKk x kk => Laws.EncodeInRow.sneVxKk x kk
  | .seVxVy x y => Laws.EncodeInRow.seVxVy x y
  | .ldVxKk x kk => Laws.EncodeInRow.ldVxKk x kk
  | .addVxKk x kk => Laws.EncodeInRow.addVxKk x kk
  | .ldVxVy x y => Laws.EncodeInRow.ldVxVy x y
  | .orVxVy x y => Laws.EncodeInRow.orVxVy x y
  | .andVxVy x y => Laws.EncodeInRow.andVxVy x y
  | .xorVxVy x y => Laws.EncodeInRow.xorVxVy x y
  | .addVxVy x y => Laws.EncodeInRow.addVxVy x y
  | .subVxVy x y => Laws.EncodeInRow.subVxVy x y
  | .shrVx x => Laws.EncodeInRow.shrVx x
  | .subnVxVy x y => Laws.EncodeInRow.subnVxVy x y
  | .shlVx x => Laws.EncodeInRow.shlVx x
  | .sneVxVy x y => Laws.EncodeInRow.sneVxVy x y
  | .ldI nnn => Laws.EncodeInRow.ldI nnn
  | .jpV0 nnn => Laws.EncodeInRow.jpV0 nnn
  | .rnd x kk => Laws.EncodeInRow.rnd x kk
  | .drw x y n => Laws.EncodeInRow.drw x y n
  | .skp x => Laws.EncodeInRow.skp x
  | .sknp x => Laws.EncodeInRow.sknp x
  | .ldVxDt x => Laws.EncodeInRow.ldVxDt x
  | .ldVxK x => Laws.EncodeInRow.ldVxK x
  | .ldDtVx x => Laws.EncodeInRow.ldDtVx x
  | .ldStVx x => Laws.EncodeInRow.ldStVx x
  | .addIVx x => Laws.EncodeInRow.addIVx x
  | .ldFVx x => Laws.EncodeInRow.ldFVx x
  | .ldBVx x => Laws.EncodeInRow.ldBVx x
  | .ldMemVx x => Laws.EncodeInRow.ldMemVx x
  | .ldVxMem x => Laws.EncodeInRow.ldVxMem x
  | .nopFamily8 => Laws.EncodeInRow.nopFamily8
  | .nopFamilyE => Laws.EncodeInRow.nopFamilyE
  | .nopFamilyF => Laws.EncodeInRow.nopFamilyF

/-- The map's first row for every word of an instruction is the instruction's own. -/
theorem Instr.HasWord.firstRow_eq {i : Instr} {w : Word} (h : i.HasWord w) : firstRowOf w = i.row := by
  cases h with
  | encoded hi hw => rw [← hw, firstRowOf_encode i hi]
  | cls hf hn | ret hf hn =>
    simp [firstRowOf_eq, rowConditions, directConditions, List.findIdx_cons, Instr.row, hf, hn]
  | seVxVy hf | sneVxVy hf =>
    simp [firstRowOf_eq, rowConditions, directConditions, family8Conditions, upperConditions, List.findIdx_cons,
      Instr.row, hf]
  | shrVx hf hn | shlVx hf hn =>
    simp [firstRowOf_eq, rowConditions, directConditions, family8Conditions, List.findIdx_cons, Instr.row, hf, hn]
  | nopFamily8 hf hn | nopFamilyE hf hn | nopFamilyF hf hn =>
    simp only [definedSelectors8, definedBytesE, definedBytesF, List.mem_cons, not_or] at hn
    simp [firstRowOf_eq, rowConditions, directConditions, family8Conditions, upperConditions, familyFConditions,
      reservedConditions, List.findIdx_cons, Instr.row, hf, hn]

/-- Settles O2: the decoder and the map choose the instruction whose word it is. -/
theorem twoLevelDecoderFollowsOpcodeMap : Obligations.TwoLevelDecoderFollowsOpcodeMap := fun w =>
  (decodeWord_hasWord w).firstRow_eq

/-! ## Ignored bits (R77) -/

theorem and_mask_registers (w : Word) : w &&& 0xFFF0 = encodeXYN (famOf w) (xOf w) (yOf w) 0 := by
  refine Word.eq_of_bits _ _ fun i => ?_
  rw [getLsbD_encodeXYN, xOf, yOf, idxNibble_nibbleIdx, idxNibble_nibbleIdx]
  fin_cases i <;> simp [famOf]

theorem and_mask_shift (w : Word) : w &&& 0xFF0F = encodeXYN (famOf w) (xOf w) 0 (lowNibbleOf w) := by
  refine Word.eq_of_bits _ _ fun i => ?_
  rw [getLsbD_encodeXYN, xOf, idxNibble_nibbleIdx]
  fin_cases i <;> simp [famOf, lowNibbleOf, idxNibble]

/-- All words of an instruction agree on the bits that its row uses. -/
theorem Instr.HasWord.encode_and_used_eq {i : Instr} {w : Word} (h : i.HasWord w) :
    encode i &&& i.opcodeRow.used = w &&& i.opcodeRow.used := by
  cases h with
  | encoded hi hw => rw [hw]
  | cls hf hn | ret hf hn =>
    refine Eq.trans ?_ (and_mask_nibble w).symm
    rw [hf, hn]
    decide
  | seVxVy hf | sneVxVy hf =>
    refine (and_mask_registers _).trans (Eq.trans ?_ (and_mask_registers w).symm)
    simp [encode, hf]
  | shrVx hf hn | shlVx hf hn =>
    refine (and_mask_shift _).trans (Eq.trans ?_ (and_mask_shift w).symm)
    simp [encode, hf, hn]
  | nopFamily8 hf | nopFamilyE hf | nopFamilyF hf =>
    refine Eq.trans ?_ (and_mask_family w).symm
    rw [hf]
    decide

/-- Settles O3: `decodeWord w` is an instruction that `w` is a word of. -/
theorem decodeKeepsEveryUsedBit : Obligations.DecodeKeepsEveryUsedBit := fun w =>
  ⟨(decodeWord_hasWord w).wellFormed, (decodeWord_hasWord w).encode_and_used_eq⟩

/-- Settles O4: `Instr.HasWord` ignores these bits; the word that an encoder emits decodes back, as every decoded instruction is
well formed. -/
theorem ignoredBitsMakeAliases : Obligations.IgnoredBitsMakeAliases := by
  refine ⟨fun w hf hn => (Instr.HasWord.cls hf hn).decodeWord_eq, fun w hf hn => (Instr.HasWord.ret hf hn).decodeWord_eq,
    fun x y low => ⟨?_, ?_⟩, fun x y => ⟨?_, ?_⟩, fun nnn => decodeWord_encode (.jpV0 nnn) rfl, fun _ _ _ => rfl,
    fun w => decodeWord_encode _ (decodeWord_hasWord w).wellFormed⟩
  · simpa using (Instr.HasWord.seVxVy (famOf_encodeXYN 0x5 x y low)).decodeWord_eq
  · simpa using (Instr.HasWord.sneVxVy (famOf_encodeXYN 0x9 x y low)).decodeWord_eq
  · simpa using (Instr.HasWord.shrVx (famOf_encodeXYN 0x8 x y 0x6) (lowNibbleOf_encodeXYN ..)).decodeWord_eq
  · simpa using (Instr.HasWord.shlVx (famOf_encodeXYN 0x8 x y 0xE) (lowNibbleOf_encodeXYN ..)).decodeWord_eq

/-! ## Reserved words (R76, R98) -/

theorem hasWord_nopFamily8_iff (w : Word) :
    Instr.nopFamily8.HasWord w ↔ famOf w = 0x8 ∧ lowNibbleOf w ∉ definedSelectors8 :=
  ⟨fun | .encoded _ hw => hw ▸ by decide | .nopFamily8 hf hn => ⟨hf, hn⟩, fun ⟨hf, hn⟩ => .nopFamily8 hf hn⟩

theorem hasWord_nopFamilyE_iff (w : Word) : Instr.nopFamilyE.HasWord w ↔ famOf w = 0xE ∧ kkOf w ∉ definedBytesE :=
  ⟨fun | .encoded _ hw => hw ▸ by decide | .nopFamilyE hf hk => ⟨hf, hk⟩, fun ⟨hf, hk⟩ => .nopFamilyE hf hk⟩

theorem hasWord_nopFamilyF_iff (w : Word) : Instr.nopFamilyF.HasWord w ↔ famOf w = 0xF ∧ kkOf w ∉ definedBytesF :=
  ⟨fun | .encoded _ hw => hw ▸ by decide | .nopFamilyF hf hk => ⟨hf, hk⟩, fun ⟨hf, hk⟩ => .nopFamilyF hf hk⟩

/-- A nibble is an undefined selector or a defined one. -/
theorem mem_reservedSelectors8_iff (n : BitVec 4) :
    n ∈ [0x8#4, 0x9#4, 0xA#4, 0xB#4, 0xC#4, 0xD#4, 0xF#4] ↔ n ∉ definedSelectors8 := by
  revert n
  decide

end Sys2Proof

namespace Sys2Proof.Machine

open Sys2Proof.Claims

theorem exec_reserved (i : Instr) (s : State) (hi : i ∈ [.nopFamily8, .nopFamilyE, .nopFamilyF]) : exec i s = .next s := by
  simp only [List.mem_cons, List.not_mem_nil, or_false] at hi
  rcases hi with rfl | rfl | rfl <;> rfl

theorem stepWith_reserved (keys : Vector Bool 16) (rnd : Byte) (s : State) (hpc : s.pc.toNat ≤ 4094)
    (hi : instrAtPc s ∈ [.nopFamily8, .nopFamilyE, .nopFamilyF]) :
    stepWith keys rnd s = .next (ticked (fetched { s with keypad := keys, rnd := rnd })) := by
  rw [stepWith_of_word keys rnd s _ hpc rfl]
  exact congrArg (onNext · ticked) (exec_reserved _ _ hi)

/-- Settles O5: the reserved words are those that `Instr.HasWord` gives the no-ops, and their execute phase does nothing. -/
theorem reservedWordsRunAsNoOps : Obligations.ReservedWordsRunAsNoOps :=
  ⟨fun w => (decodeWord_eq_iff w _).trans <| (hasWord_nopFamily8_iff w).trans <|
      and_congr_right' (mem_reservedSelectors8_iff _).symm,
    fun w => (decodeWord_eq_iff w _).trans (hasWord_nopFamilyE_iff w),
    fun w => (decodeWord_eq_iff w _).trans (hasWord_nopFamilyF_iff w), stepWith_reserved⟩

/-! ## Every instruction has a meaning (R73, R76) -/

theorem exec_ne_refused (i : Instr) (s : State) (q : Refusal) : exec i s ≠ .refused q := by
  cases i with
  | call | ret | skp | sknp => simp only [exec, execCall, execRet, execSkp, execSknp]; split <;> nofun
  | ldBVx | ldMemVx | ldVxMem | drw => simp only [exec, execLdBVx, execLdMemVx, execLdVxMem, execDrw]; split <;> nofun
  | _ => nofun

theorem onNext_ne_refused (r : Result) (k : State → State) (q : Refusal) (h : r ≠ .refused q) : onNext r k ≠ .refused q := by
  cases r with
  | refused => exact fun hq => h (by simpa [onNext] using hq)
  | _ => nofun

theorem cycle_ne_refused (s : State) (q : Refusal) : cycle s ≠ .refused q := by
  cases hf : s.fetch with
  | none => rw [cycle_of_no_fetch s hf]; nofun
  | some op => rw [cycle_of_fetch s op hf]; exact onNext_ne_refused _ _ q (exec_ne_refused _ _ q)

/-- Settles O10: neither the fetch nor an execute phase refuses. -/
theorem noStepIsRefused : Obligations.NoStepIsRefused := fun s q => cycle_ne_refused s.latchInput q

end Sys2Proof.Machine
end

section
/-! The step cycle (spec/40_step_cycle.md): a step, its no-ops, and the load of a program, each from one equation per case. -/

namespace Sys2Proof.Machine

open Sys2Proof.Claims

/-! ## The load (R96, R156) -/

theorem loadProgram_of_fits (bytes : List Byte) (s : State) (h : bytes.length ≤ 3584) :
    loadProgram bytes s = .next (s.setMem (s.mem.writeBytes 0x200 bytes)) := if_neg (Nat.not_lt.2 h)

theorem loadProgram_of_tooLarge (bytes : List Byte) (s : State) (h : 3584 < bytes.length) :
    loadProgram bytes s = .fault .programTooLarge := if_pos h

/-- Settles O15: a load is one block write of memory. -/
theorem loadProgramCopiesTheImage : Obligations.LoadProgramCopiesTheImage := by
  refine fun bytes s => ⟨fun hfits => ⟨_, loadProgram_of_fits bytes s hfits, rfl, fun i hi => ?_, fun a ha => ?_⟩,
    loadProgram_of_tooLarge bytes s⟩
  · rw [State.setMem_mem, Memory.read_writeBytes, if_pos (by omega), Nat.add_sub_cancel_left]
  · exact Memory.read_writeBytes_outside _ _ _ _ ha

/-! ## The four phases (R90) -/

theorem stepWith_of_fetchable (keys : Vector Bool 16) (rnd : Byte) (s : State) (hpc : s.pc.toNat ≤ 4094) :
    stepWith keys rnd s = onNext (exec (instrAtPc s) (fetched { s with keypad := keys, rnd := rnd })) ticked :=
  stepWith_of_word keys rnd s _ hpc rfl

theorem stepWith_of_not_fetchable (keys : Vector Bool 16) (rnd : Byte) (s : State) (hpc : 4095 ≤ s.pc.toNat) :
    stepWith keys rnd s = .fault .addressOutOfRange :=
  cycle_of_no_fetch (s.withArgs keys rnd) ((State.fetch_none_iff s).2 hpc)

theorem transact_step_of_fault (keys : Vector Bool 16) (rnd : Byte) (s : State) (f : Fault)
    (h : stepWith keys rnd s = .fault f) : transact (.step keys rnd) s = (.fault f, { s with keypad := keys, rnd := rnd }) := by
  rw [transact, h]
  rfl

/-- Settles O8: the fetch bound separates the two cases of the cycle, and a fault leaves what the host wrote. -/
theorem stepFollowsTheFourPhases : Obligations.StepFollowsTheFourPhases := fun keys rnd s =>
  ⟨fun hpc => stepWith_of_not_fetchable keys rnd s (Nat.le_of_succ_le_succ hpc),
    fun hpc => stepWith_of_fetchable keys rnd s (Nat.le_of_lt_succ (Nat.lt_of_succ_lt_succ hpc)),
    transact_step_of_fault keys rnd s⟩

theorem decode_bytesAtPc (s : State) : decode (bytesAtPc s) = .ok (instrAtPc s, []) := rfl

theorem instrAtPc_of_decode (s : State) (i : Instr) (h : decode (bytesAtPc s) = .ok (i, [])) : instrAtPc s = i := by
  rw [decode_bytesAtPc] at h
  cases h
  rfl

/-- Settles O7: the machine's step is the step with the next arguments, after the queue has moved on. -/
theorem stepRunsTheDecodedInstruction : Obligations.StepRunsTheDecodedInstruction := by
  intro s i hpc hi
  obtain rfl := instrAtPc_of_decode s i hi
  rw [step_eq_stepWith]
  exact stepWith_of_fetchable _ _ { s with inputs := s.inputs.tail, draw := s.draw + 1 } hpc

/-! ## No-ops (R97, R98) -/

theorem exec_sys (nnn : Addr) (s : State) : exec (.sys nnn) s = .next s := rfl

theorem stepWith_sys (keys : Vector Bool 16) (rnd : Byte) (s : State) (nnn : Addr) (hpc : s.pc.toNat ≤ 4094)
    (hi : instrAtPc s = .sys nnn) : stepWith keys rnd s = .next (ticked (fetched { s with keypad := keys, rnd := rnd })) := by
  rw [stepWith_of_fetchable keys rnd s hpc, hi, exec_sys, onNext_next]

/-- Settles O20: `SYS` and the reserved words leave the state as the fetch made it. -/
theorem noOpsDoNothing : Obligations.NoOpsDoNothing := by
  refine fun s => ⟨fun nnn => exec_sys nnn s, exec_reserved _ s (by decide), exec_reserved _ s (by decide),
    exec_reserved _ s (by decide), fun keys rnd hpc hi => ?_⟩
  rcases hi with ⟨nnn, hsys⟩ | hreserved
  · exact stepWith_sys keys rnd s nnn hpc hsys
  · exact stepWith_reserved keys rnd s hpc hreserved

end Sys2Proof.Machine
end

section
/-! Control transfer (spec/41_control_flow.md): one equation per instruction and case, and the statements read off them. -/

namespace Sys2Proof.Machine

/-! ## Zero extension keeps the value (R75) -/

theorem toNat_zextAddr (nnn : Addr) : (zextAddr nnn).toNat = nnn.toNat :=
  BitVec.toNat_setWidth_of_le (by decide)

theorem toNat_zextByte (v : Byte) : (zextByte v).toNat = v.toNat :=
  BitVec.toNat_setWidth_of_le (by decide)

/-- 8 and 12 bits cannot carry out of 16 (R104). -/
theorem toNat_zextByte_add_zextAddr (v : Byte) (nnn : Addr) :
    (zextByte v + zextAddr nnn).toNat = v.toNat + nnn.toNat := by
  have hv := v.isLt
  have hn := nnn.isLt
  rw [BitVec.toNat_add, toNat_zextByte, toNat_zextAddr]
  exact Nat.mod_eq_of_lt (by omega)

/-! ## Jumps (R101, R104) -/

theorem exec_jp (nnn : Addr) (s : State) : exec (.jp nnn) s = .next (s.setPc (zextAddr nnn)) := rfl

theorem exec_jpV0 (nnn : Addr) (s : State) :
    exec (.jpV0 nnn) s = .next (s.setPc (zextByte (s.getV 0) + zextAddr nnn)) := rfl

/-- Settles O21: a jump is one write of the pc, and the target keeps its 12 bits. -/
theorem jumpSetsThePc : Obligations.JumpSetsThePc := fun nnn s =>
  ⟨_, exec_jp nnn s, toNat_zextAddr nnn, rfl⟩

/-- Settles O26: a jump too, and the sum of register and address does not wrap. -/
theorem jumpV0AddsTheFullAddress : Obligations.JumpV0AddsTheFullAddress := fun nnn s =>
  ⟨_, exec_jpV0 nnn s, toNat_zextByte_add_zextAddr (s.getV 0) nnn, rfl⟩

/-! ## Skips (R100, R105 to R108) -/

theorem State.skipIf_eq (s : State) (c : Bool) : s.skipIf c = { s with pc := if c then s.pc + 2 else s.pc } := by
  cases c <;> rfl

/-- The skip of the `SE` instructions. -/
theorem State.skipIf_beq (s : State) (a b : Byte) :
    s.skipIf (a == b) = { s with pc := if a = b then s.pc + 2 else s.pc } := by
  simp only [State.skipIf_eq, beq_iff_eq]

/-- The skip of the `SNE` instructions. -/
theorem State.skipIf_bne (s : State) (a b : Byte) :
    s.skipIf (a != b) = { s with pc := if a = b then s.pc else s.pc + 2 } := by
  simp only [State.skipIf_eq, bne_iff_ne, ne_eq, ite_not]

/-- Settles O27: two instructions skip on equal operands, two on unequal ones. -/
theorem skipsMoveThePcByTwo : Obligations.SkipsMoveThePcByTwo := fun x y kk s =>
  ⟨congrArg Host.Outcome.next (s.skipIf_beq (s.getV x) kk), congrArg Host.Outcome.next (s.skipIf_bne (s.getV x) kk),
    congrArg Host.Outcome.next (s.skipIf_beq (s.getV x) (s.getV y)),
    congrArg Host.Outcome.next (s.skipIf_bne (s.getV x) (s.getV y))⟩

/-! ## Call and return (R102, R103) -/

theorem exec_call_of_free (nnn : Addr) (s : State) (h : s.SP.val < 16) :
    exec (.call nnn) s = .next { s with
      stack := s.stack.set s.SP.val s.pc h, SP := ⟨s.SP.val + 1, Nat.succ_lt_succ h⟩, pc := zextAddr nnn } := by
  simp only [exec, execCall, State.pushReturn_eq s s.pc h, State.setPc]

theorem exec_call_of_full (nnn : Addr) (s : State) (h : s.SP.val = 16) :
    exec (.call nnn) s = .fault .stackOverflow := by
  simp only [exec, execCall, (State.pushReturn_none_iff s s.pc).2 h, raise]

/-- A pop with `k + 1` addresses saved answers slot `k` (R103). -/
theorem State.popReturn_eq (s : State) (k : Fin 16) (h : s.SP.val = k.val + 1) :
    s.popReturn = some (s.stack[k.val], { s with SP := k.castSucc }) := by
  simp [State.popReturn, h, Fin.castSucc, Fin.castAdd, Fin.castLE]

theorem exec_ret_of_saved (s : State) (k : Fin 16) (h : s.SP.val = k.val + 1) :
    exec .ret s = .next { s with SP := k.castSucc, pc := s.stack[k.val] } := by
  simp only [exec, execRet, State.popReturn_eq s k h, State.setPc]

theorem exec_ret_of_empty (s : State) (h : s.SP.val = 0) : exec .ret s = .fault .stackUnderflow := by
  simp only [exec, execRet, (State.popReturn_none_iff s).2 h, raise]

/-- Settles O22: with a free slot the call is one write of slot `SP`, with none the push fails. -/
theorem callSavesThePcAndJumps : Obligations.CallSavesThePcAndJumps := by
  refine fun nnn s => ⟨fun hfree => ⟨_, exec_call_of_free nnn s hfree, fun k => ?_, rfl, toNat_zextAddr nnn, rfl⟩,
    exec_call_of_full nnn s⟩
  simp only [Vector.getElem_set, eq_comm]

/-- Settles O23: with an address saved the return reads the slot below `SP`, with none the pop fails. -/
theorem retTakesTheSavedPc : Obligations.RetTakesTheSavedPc := fun s =>
  ⟨fun k hk => ⟨_, exec_ret_of_saved s k hk, rfl, rfl, rfl⟩, exec_ret_of_empty s⟩

/-- Settles O24: the slot that the return reads is the one that the call wrote. -/
theorem callThenRetResumes : Obligations.CallThenRetResumes := by
  intro nnn s t u hcall hSP hstack
  obtain ⟨hfree, rfl⟩ := execCall_next nnn s t hcall
  have hsaved : u.SP.val = s.SP.val + 1 := congrArg Fin.val hSP
  refine ⟨_, exec_ret_of_saved u ⟨s.SP.val, hfree⟩ hsaved, ?_, rfl⟩
  simp only [hstack, Vector.getElem_set_self]

end Sys2Proof.Machine
end

section
/-! The register file and the ALU (spec/42_alu.md): an instruction that writes one register is one use of
`sameButRegisters_setV`, one that writes a result and the flag one use of `exec_resultAndFlag`. -/

namespace Sys2Proof.Machine

open Sys2Proof.Claims

/-! ## Frames of the two register writes (R110) -/

theorem sameButRegisters_setV (s : State) (x : RegIdx) (v : Byte) : SameButRegisters [x] s (s.setV x v) :=
  ⟨rfl, fun r hr => State.getV_setV_ne s x r v (List.ne_of_not_mem_cons hr)⟩

theorem sameButRegisters_setResultAndFlag (s : State) (x : RegIdx) (v : Byte) (f : Bool) :
    SameButRegisters [x, 15] s (s.setResultAndFlag x v f) := by
  refine ⟨rfl, fun r hr => ?_⟩
  obtain ⟨hx, hflag⟩ : r ≠ x ∧ r ≠ vf := by simpa [vf] using hr
  rw [State.getV_setResultAndFlag, if_neg hflag, if_neg hx]

theorem State.getV_result_setResultAndFlag (s : State) (x : RegIdx) (v : Byte) (f : Bool) (hx : x ≠ vf) :
    (s.setResultAndFlag x v f).getV x = v := by
  rw [State.getV_setResultAndFlag, if_neg hx, if_pos rfl]

/-! ## Random numbers (R122) -/

theorem exec_rnd (x : RegIdx) (kk : Byte) (s : State) : exec (.rnd x kk) s = .next (s.setV x (s.rnd &&& kk)) := rfl

/-- Settles O34: `RND` is one register write, and `exec_mapIgnored` says that every other instruction ignores the byte. -/
theorem randomByteReachesRndAlone : Obligations.RandomByteReachesRndAlone := by
  refine ⟨fun x kk s => ⟨_, exec_rnd x kk s, sameButRegisters_setV s x _, fun b _ => ?_⟩, fun i s byte hi =>
    exec_mapIgnored s id id (fun _ => byte) i (.inl rfl) (.inl rfl) (.inr hi)⟩
  rw [State.getV_setV_same, BitVec.getLsbD_and]

/-! ## Instructions that touch no flag (R111 to R116) -/

theorem exec_ldVxKk (x : RegIdx) (kk : Byte) (s : State) : exec (.ldVxKk x kk) s = .next (s.setV x kk) := rfl

theorem exec_ldVxVy (x y : RegIdx) (s : State) : exec (.ldVxVy x y) s = .next (s.setV x (s.getV y)) := rfl

theorem exec_addVxKk (x : RegIdx) (kk : Byte) (s : State) :
    exec (.addVxKk x kk) s = .next (s.setV x (s.getV x + kk)) := rfl

theorem exec_orVxVy (x y : RegIdx) (s : State) :
    exec (.orVxVy x y) s = .next (s.setV x (s.getV x ||| s.getV y)) := rfl

theorem exec_andVxVy (x y : RegIdx) (s : State) :
    exec (.andVxVy x y) s = .next (s.setV x (s.getV x &&& s.getV y)) := rfl

theorem exec_xorVxVy (x y : RegIdx) (s : State) :
    exec (.xorVxVy x y) s = .next (s.setV x (s.getV x ^^^ s.getV y)) := rfl

/-- Settles O28: both loads are one register write. -/
theorem registerLoadsAssign : Obligations.RegisterLoadsAssign := fun x y kk s =>
  ⟨⟨_, exec_ldVxKk x kk s, State.getV_setV_same s x _, sameButRegisters_setV s x _⟩,
    ⟨_, exec_ldVxVy x y s, State.getV_setV_same s x _, sameButRegisters_setV s x _⟩⟩

/-- Settles O29: one register write, of a sum of bytes. -/
theorem addImmediateTouchesNoFlag : Obligations.AddImmediateTouchesNoFlag := by
  refine fun x kk s => ⟨_, exec_addVxKk x kk s, ?_, sameButRegisters_setV s x _⟩
  rw [State.getV_setV_same, BitVec.toNat_add]

/-- Settles O30: each is one register write, and the library has the bits of the three results. -/
theorem bitwiseOpsActBitByBit : Obligations.BitwiseOpsActBitByBit := by
  refine fun x y s => ⟨⟨_, exec_orVxVy x y s, sameButRegisters_setV s x _, fun b _ => ?_⟩,
    ⟨_, exec_andVxVy x y s, sameButRegisters_setV s x _, fun b _ => ?_⟩,
    ⟨_, exec_xorVxVy x y s, sameButRegisters_setV s x _, fun b _ => ?_⟩⟩
  · rw [State.getV_setV_same, BitVec.getLsbD_or]
  · rw [State.getV_setV_same, BitVec.getLsbD_and]
  · rw [State.getV_setV_same, BitVec.getLsbD_xor]

/-! ## Results as numbers (R123) -/

/-- The difference is written as the obligations write it, with the modulus added first. -/
theorem Byte.toNat_sub (a b : Byte) : (a - b).toNat = (a.toNat + 256 - b.toNat) % 256 := by
  have := b.isLt
  rw [BitVec.toNat_sub]
  omega

theorem Byte.toNat_shiftRight_one (a : Byte) : (a >>> 1).toNat = a.toNat / 2 := by
  rw [BitVec.toNat_ushiftRight, Nat.shiftRight_eq_div_pow, Nat.pow_one]

theorem Byte.toNat_shiftLeft_one (a : Byte) : (a <<< 1).toNat = 2 * a.toNat % 256 := by
  rw [BitVec.toNat_shiftLeft, Nat.shiftLeft_eq, Nat.pow_one, Nat.mul_comm]

/-! ## Flags as numbers (R110, R123) -/

theorem toNat_flagByte_decide (p : Prop) [Decidable p] : (flagByte (decide p)).toNat = if p then 1 else 0 := by
  by_cases hp : p <;> simp [flagByte, hp]

theorem shiftedOutRight_eq (a : Byte) : shiftedOutRight a = decide (a.toNat % 2 = 1) := by
  rw [shiftedOutRight, beq_eq_decide, decide_eq_decide, ← BitVec.toNat_inj, BitVec.toNat_and]
  exact Eq.congr_left (Nat.and_one_is_mod a.toNat)

/-- Bit 7 is what a right shift moves out once the byte has been shifted by 7. -/
theorem shiftedOutLeft_eq (a : Byte) : shiftedOutLeft a = shiftedOutRight (a >>> 7) := by
  rw [shiftedOutLeft, BitVec.ushiftRight_and_distrib]
  rfl

theorem toNat_flagByte_shiftedOutRight (a : Byte) : (flagByte (shiftedOutRight a)).toNat = a.toNat % 2 := by
  rw [shiftedOutRight_eq, toNat_flagByte_decide]
  split <;> omega

theorem toNat_flagByte_shiftedOutLeft (a : Byte) : (flagByte (shiftedOutLeft a)).toNat = a.toNat / 128 := by
  have := a.isLt
  rw [shiftedOutLeft_eq, toNat_flagByte_shiftedOutRight, BitVec.toNat_ushiftRight, Nat.shiftRight_eq_div_pow]
  omega

/-! ## Instructions that write a result and then the flag (R117 to R121) -/

theorem exec_addVxVy (x y : RegIdx) (s : State) : exec (.addVxVy x y) s =
    .next (s.setResultAndFlag x (s.getV x + s.getV y) (carryOf (s.getV x) (s.getV y))) := rfl

theorem exec_subVxVy (x y : RegIdx) (s : State) : exec (.subVxVy x y) s =
    .next (s.setResultAndFlag x (s.getV x - s.getV y) (strictlyGreater (s.getV x) (s.getV y))) := rfl

theorem exec_subnVxVy (x y : RegIdx) (s : State) : exec (.subnVxVy x y) s =
    .next (s.setResultAndFlag x (s.getV y - s.getV x) (strictlyGreater (s.getV y) (s.getV x))) := rfl

theorem exec_shrVx (x : RegIdx) (s : State) : exec (.shrVx x) s =
    .next (s.setResultAndFlag x (s.getV x >>> 1) (shiftedOutRight (s.getV x))) := rfl

theorem exec_shlVx (x : RegIdx) (s : State) : exec (.shlVx x) s =
    .next (s.setResultAndFlag x (s.getV x <<< 1) (shiftedOutLeft (s.getV x))) := rfl

/-- What a flag writer leaves, by the numbers that its result and its flag are. -/
theorem exec_resultAndFlag {i : Instr} {s : State} {x : RegIdx} {v : Byte} {f : Bool} {result flag : Nat}
    (h : exec i s = .next (s.setResultAndFlag x v f)) (hv : v.toNat = result) (hf : (flagByte f).toNat = flag) :
    ∃ t, exec i s = .next t ∧ SameButRegisters [x, 15] s t ∧ (x ≠ 15 → (t.getV x).toNat = result) ∧
      (t.getV 15).toNat = flag := by
  refine ⟨_, h, sameButRegisters_setResultAndFlag s x v f, fun hx => ?_, ?_⟩
  · rw [State.getV_result_setResultAndFlag s x v f hx, hv]
  · rw [State.getV_flag_setResultAndFlag, hf]

/-- Settles O31: the carry is decided on the sum before it is reduced. -/
theorem addSetsTheCarry : Obligations.AddSetsTheCarry := fun x y s =>
  exec_resultAndFlag (exec_addVxVy x y s) (BitVec.toNat_add _ _) (toNat_flagByte_decide _)

/-- Settles O32: the two subtractions differ in the order of the operands alone. -/
theorem subtractionsSetTheStrictFlag : Obligations.SubtractionsSetTheStrictFlag := fun x y s =>
  ⟨exec_resultAndFlag (exec_subVxVy x y s) (Byte.toNat_sub _ _) (toNat_flagByte_decide _),
    exec_resultAndFlag (exec_subnVxVy x y s) (Byte.toNat_sub _ _) (toNat_flagByte_decide _)⟩

/-- Settles O33: the flag is the parity of the byte, or its most significant bit. -/
theorem shiftsMoveTheBitToTheFlag : Obligations.ShiftsMoveTheBitToTheFlag := fun x s =>
  ⟨exec_resultAndFlag (exec_shrVx x s) (Byte.toNat_shiftRight_one _) (toNat_flagByte_shiftedOutRight _),
    exec_resultAndFlag (exec_shlVx x s) (Byte.toNat_shiftLeft_one _) (toNat_flagByte_shiftedOutLeft _)⟩

end Sys2Proof.Machine
end

section
/-! Index register, loads and stores (spec/43_index_memory.md): one equation per instruction and case; what a store leaves
is read off `exec_read` and the frame of O55, `onlyTwoInstructionsStoreToMemory`. -/

namespace Sys2Proof.Machine

open Sys2Proof.Claims

/-! ## The index register (R125 to R127) -/

theorem exec_ldI (nnn : Addr) (s : State) : exec (.ldI nnn) s = .next (s.setI (zextAddr nnn)) := rfl

theorem exec_addIVx (x : RegIdx) (s : State) : exec (.addIVx x) s = .next (s.setI (s.I + zextByte (s.getV x))) := rfl

theorem exec_ldFVx (x : RegIdx) (s : State) : exec (.ldFVx x) s = .next (s.setI (glyphAddr (s.getV x))) := rfl

theorem toNat_add_zextByte (i : Word) (v : Byte) : (i + zextByte v).toNat = (i.toNat + v.toNat) % 65536 := by
  rw [BitVec.toNat_add, toNat_zextByte]

/-- Settles O35: both are one write of `I`. -/
theorem indexIsSetAndAdded : Obligations.IndexIsSetAndAdded := fun nnn x s =>
  ⟨⟨_, exec_ldI nnn s, toNat_zextAddr nnn, rfl⟩, ⟨_, exec_addIVx x s, toNat_add_zextByte s.I (s.getV x), rfl⟩⟩

theorem Byte.toNat_and_lowNibble (v : Byte) : (v &&& 0x0F).toNat = v.toNat % 16 := by
  rw [BitVec.toNat_and]
  exact Nat.and_two_pow_sub_one_eq_mod v.toNat 4

/-- With the mask the address is inside the font, so 16 bits hold it. -/
theorem toNat_glyphAddr (v : Byte) : (glyphAddr v).toNat = 0x050 + 5 * (v.toNat % 16) := by
  simp only [glyphAddr, fontBase, fx29Mask, if_true, BitVec.toNat_ofNat, Byte.toNat_and_lowNibble]
  omega

/-- Settles O36: one write of `I`, of an address that does not wrap. -/
theorem fontAddressIsTheGlyphOfTheLowNibble : Obligations.FontAddressIsTheGlyphOfTheLowNibble := fun x s =>
  ⟨_, exec_ldFVx x s, toNat_glyphAddr (s.getV x), rfl⟩

/-! ## The range check (R56, R129) -/

/-- The check of an instruction that touches the cell at `I`, by the address of its last cell. -/
theorem cellsExist_succ_iff (i : Word) (k : Nat) : cellsExist i (k + 1) ↔ i.toNat + k ≤ 4095 := by
  simp only [cellsExist, effAddr, Config.memSize]
  omega

theorem exec_ldBVx_of_inside (x : RegIdx) (s : State) (h : s.I.toNat ≤ 4093) :
    exec (.ldBVx x) s = .next (s.setMem (s.mem.writeBytes (effAddr s.I 0) (decimalDigits (s.getV x)))) :=
  if_pos ((cellsExist_succ_iff s.I 2).2 (by omega))

theorem exec_ldBVx_of_outside (x : RegIdx) (s : State) (h : 4093 < s.I.toNat) :
    exec (.ldBVx x) s = .fault .addressOutOfRange :=
  if_neg (mt (cellsExist_succ_iff s.I 2).1 (by omega))

theorem exec_ldMemVx_of_inside (x : RegIdx) (s : State) (h : s.I.toNat + x.val ≤ 4095) :
    exec (.ldMemVx x) s = .next (s.setMem (s.mem.writeBytes (effAddr s.I 0) (s.lowRegisters x))) :=
  if_pos ((cellsExist_succ_iff s.I x.val).2 h)

theorem exec_ldMemVx_of_outside (x : RegIdx) (s : State) (h : 4095 < s.I.toNat + x.val) :
    exec (.ldMemVx x) s = .fault .addressOutOfRange :=
  if_neg (mt (cellsExist_succ_iff s.I x.val).1 (Nat.not_le.2 h))

theorem exec_ldVxMem_of_inside (x : RegIdx) (s : State) (h : s.I.toNat + x.val ≤ 4095) :
    exec (.ldVxMem x) s = .next (s.loadLowRegisters x) :=
  if_pos ((cellsExist_succ_iff s.I x.val).2 h)

theorem exec_ldVxMem_of_outside (x : RegIdx) (s : State) (h : 4095 < s.I.toNat + x.val) :
    exec (.ldVxMem x) s = .fault .addressOutOfRange :=
  if_neg (mt (cellsExist_succ_iff s.I x.val).1 (Nat.not_le.2 h))

/-! ## The stores (R128, R130) -/

/-- The `k`-th cell from `I` up reads as the `k`-th byte stored. -/
theorem exec_read_stored (i : Instr) (s t : State) (h : exec i s = .next t) (k : Nat) (hk : k < (storedBytes i s).length) :
    t.mem.read (effAddr s.I k) = (storedBytes i s).getD k 0 := by
  have hin : effAddr s.I 0 ≤ effAddr s.I k ∧ effAddr s.I k < effAddr s.I (storedBytes i s).length :=
    ⟨Nat.add_le_add_left (Nat.zero_le k) _, Nat.add_lt_add_left hk _⟩
  have hoffset : effAddr s.I k - effAddr s.I 0 = k := Nat.add_sub_add_left _ _ _
  rw [exec_read i s t h, byteAfter, if_pos hin, hoffset]

theorem toNat_ofNat_of_le_byte (v : Byte) (n : Nat) (h : n ≤ v.toNat) : (BitVec.ofNat 8 n).toNat = n :=
  (BitVec.toNat_ofNat n 8).trans (Nat.mod_eq_of_lt (h.trans_lt v.isLt))

theorem exec_ldBVx_read (x : RegIdx) (s t : State) (h : exec (.ldBVx x) s = .next t) (k : Nat) (hk : k < 3) :
    t.mem.read (effAddr s.I k) = (decimalDigits (s.getV x)).getD k 0 := exec_read_stored _ s t h k hk

/-- Settles O37: the three bytes stored, each a digit that a byte holds. -/
theorem decimalDigitsAreStored : Obligations.DecimalDigitsAreStored := by
  refine fun x s => ⟨fun h => ?_, exec_ldBVx_of_outside x s⟩
  have hexec := exec_ldBVx_of_inside x s h
  have stored := exec_ldBVx_read x s _ hexec
  obtain ⟨-, outside, -⟩ := onlyTwoInstructionsStoreToMemory _ s _ hexec
  refine ⟨_, hexec, rfl, ?_, ?_, ?_, outside x rfl⟩
  · rw [stored 0 (by decide)]
    exact toNat_ofNat_of_le_byte (s.getV x) _ (Nat.div_le_self _ _)
  · rw [stored 1 (by decide)]
    exact toNat_ofNat_of_le_byte (s.getV x) _ ((Nat.mod_le _ _).trans (Nat.div_le_self _ _))
  · rw [stored 2 (by decide)]
    exact toNat_ofNat_of_le_byte (s.getV x) _ (Nat.mod_le _ _)

theorem exec_ldMemVx_read (x r : RegIdx) (s t : State) (h : exec (.ldMemVx x) s = .next t) (hr : r ≤ x) :
    t.mem.read (effAddr s.I r.val) = s.getV r := by
  have stored := exec_read_stored _ s t h r.val
  rw [storedBytes_ldMemVx, State.length_lowRegisters, State.getD_lowRegisters s x r hr] at stored
  exact stored (Nat.lt_succ_of_le hr)

/-- Settles O38: the bytes stored are the low registers. -/
theorem blockStoreWritesTheRegisters : Obligations.BlockStoreWritesTheRegisters := by
  refine fun x s => ⟨fun h => ?_, exec_ldMemVx_of_outside x s⟩
  have hexec := exec_ldMemVx_of_inside x s h
  obtain ⟨-, -, outside⟩ := onlyTwoInstructionsStoreToMemory _ s _ hexec
  exact ⟨_, hexec, rfl, fun r => exec_ldMemVx_read x r s _ hexec, outside x rfl⟩

/-! ## The block load (R131) -/

/-- Settles O39: the load is one write of the register file. -/
theorem blockLoadReadsTheRegisters : Obligations.BlockLoadReadsTheRegisters := fun x s =>
  ⟨fun h => ⟨_, exec_ldVxMem_of_inside x s h, rfl, State.getV_loadLowRegisters s x⟩, exec_ldVxMem_of_outside x s⟩

/-- Settles O40: the load passes the check that the store passed, and reads the cells that the store wrote. -/
theorem blockStoreThenLoadRestores : Obligations.BlockStoreThenLoadRestores := by
  intro x s t u hstore hmem hI
  obtain ⟨hcells, ht⟩ := execLdMemVx_next x s t hstore
  have hI' : u.I = s.I := by rw [hI, ht, State.setMem_I]
  have hrange : u.I.toNat + x.val ≤ 4095 := by rwa [hI', ← cellsExist_succ_iff]
  refine ⟨_, exec_ldVxMem_of_inside x u hrange, fun r hr => ?_⟩
  rw [State.getV_loadLowRegisters, if_pos hr, hmem, hI']
  exact exec_ldMemVx_read x r s t hstore hr

end Sys2Proof.Machine
end

section
/-! The framebuffer write unit (spec/44_display.md): a completed `DRW` XORs every pixel with the sprite's bit over it, and
its flag is the collision; the toggling and the second draw that undoes it are read off these two. -/

namespace Sys2Proof.Machine

open Sys2Proof.Claims

/-! ## Clearing the screen (R135) -/

theorem exec_cls (s : State) : exec .cls s = .next (s.setFb (Vector.replicate 2048 false)) := rfl

/-- Settles O42: one write of the whole framebuffer. -/
theorem clsTurnsEveryPixelOff : Obligations.ClsTurnsEveryPixelOff := fun s => ⟨_, exec_cls s, rfl, pixelAt_clear⟩

/-! ## The sprite in memory (R136, R138) -/

/-- The bit that the sprite of `DRW Vx,Vy,n` on `s` has over a pixel, 0 outside the sprite. -/
def spriteBitAt (x y : RegIdx) (n : Fin 16) (s : State) (px : Fin 64) (py : Fin 32) : Bool :=
  spriteBit ((s.getV x).toNat % 64) ((s.getV y).toNat % 32) (s.mem.readBytes (effAddr s.I 0) n.val) px.val py.val

/-- `spriteBit` measures a pixel from the origin, `spriteCovers` counts up to the pixel. -/
theorem spriteBitAt_iff (x y : RegIdx) (n : Fin 16) (s : State) (px : Fin 64) (py : Fin 32) :
    spriteBitAt x y n s px py = true ↔ spriteCovers x y n s px py := by
  simp only [spriteBitAt, spriteBit, Memory.length_readBytes, Bool.and_eq_true, decide_eq_true_eq]
  constructor
  · rintro ⟨⟨hy, hyn, hx, hx8⟩, hbit⟩
    rw [Memory.getD_readBytes _ _ _ _ (by omega)] at hbit
    exact ⟨_, _, by omega, by omega, (Nat.add_sub_cancel' hy).symm, (Nat.add_sub_cancel' hx).symm, hbit⟩
  · rintro ⟨r, c, hr, hc, hy, hx, hbit⟩
    rw [hy, hx, Nat.add_sub_cancel_left, Nat.add_sub_cancel_left, Memory.getD_readBytes _ _ _ _ hr]
    exact ⟨by omega, hbit⟩

/-- The sprite's bits depend on the operands' values, `I` and memory alone. -/
theorem spriteBitAt_congr {x y : RegIdx} {s u : State} (n : Fin 16) (hmem : u.mem = s.mem) (hI : u.I = s.I)
    (hx : u.getV x = s.getV x) (hy : u.getV y = s.getV y) : spriteBitAt x y n u = spriteBitAt x y n s := by
  funext px py
  simp only [spriteBitAt, hmem, hI, hx, hy]

/-! ## What a draw does (R136) -/

theorem cellsExist_iff_last (i : Word) (count : Nat) : cellsExist i count ↔ count = 0 ∨ i.toNat + count - 1 ≤ 4095 := by
  simp only [cellsExist, effAddr, Config.memSize]
  omega

theorem exec_drw_of_inside (x y : RegIdx) (n : Fin 16) (s : State) (h : cellsExist s.I n.val) :
    exec (.drw x y n) s = .next ((s.setFlag (drawnCanvas x y n s).hit).setFb (drawnCanvas x y n s).fb) :=
  execDrw_eq x y n s h

theorem exec_drw_of_outside (x y : RegIdx) (n : Fin 16) (s : State) (h : ¬cellsExist s.I n.val) :
    exec (.drw x y n) s = .fault .addressOutOfRange := if_neg h

theorem pixelAt_drawnCanvas (x y : RegIdx) (n : Fin 16) (s : State) (px : Fin 64) (py : Fin 32) :
    pixelAt (drawnCanvas x y n s).fb px py = (pixelAt s.fb px py ^^ spriteBitAt x y n s px py) :=
  pixelAt_drawRows _ _ _ _ px py

/-- A set bit over a pixel that is on is the same as a pixel that is on before and off after. -/
theorem drawnCanvas_hit (x y : RegIdx) (n : Fin 16) (s : State) : (drawnCanvas x y n s).hit = true ↔
    ∃ px py, pixelAt s.fb px py = true ∧ pixelAt (drawnCanvas x y n s).fb px py = false := by
  have hhit : (drawnCanvas x y n s).hit = true ↔
      false = true ∨ ∃ px py, spriteBitAt x y n s px py = true ∧ pixelAt s.fb px py = true := drawRows_hit _ _ _ _
  rw [hhit, or_iff_right Bool.false_ne_true]
  refine exists_congr fun px => exists_congr fun py => and_comm.trans (and_congr_right fun hon => ?_)
  rw [pixelAt_drawnCanvas, hon, Bool.true_xor, Bool.not_eq_false']

theorem exec_drw_pixelAt {x y : RegIdx} {n : Fin 16} {s t : State} (h : exec (.drw x y n) s = .next t)
    (px : Fin 64) (py : Fin 32) : pixelAt t.fb px py = (pixelAt s.fb px py ^^ spriteBitAt x y n s px py) := by
  obtain ⟨-, rfl⟩ := execDrw_next x y n s t h
  exact pixelAt_drawnCanvas x y n s px py

theorem flagByte_eq_one_iff (f : Bool) : flagByte f = 1 ↔ f = true := by
  cases f <;> simp [flagByte]

theorem exec_drw_flag_iff {x y : RegIdx} {n : Fin 16} {s t : State} (h : exec (.drw x y n) s = .next t) :
    t.getV 15 = 1 ↔ ∃ px py, pixelAt s.fb px py = true ∧ pixelAt t.fb px py = false := by
  obtain ⟨-, rfl⟩ := execDrw_next x y n s t h
  rw [State.getV_flag_setFlag_setFb, flagByte_eq_one_iff]
  exact drawnCanvas_hit x y n s

/-- Without a row there is no bit to draw. -/
theorem exec_drw_fb_of_no_rows {x y : RegIdx} {n : Fin 16} {s t : State} (h : exec (.drw x y n) s = .next t)
    (hn : n.val = 0) : t.fb = s.fb := by
  refine fb_ext _ _ fun px py => ?_
  have hbit : spriteBitAt x y n s px py = false := by
    rw [Bool.eq_false_iff, Ne, spriteBitAt_iff]
    rintro ⟨r, -, hr, -⟩
    omega
  rw [exec_drw_pixelAt h, hbit, Bool.xor_false]

/-- Settles O43: the XOR with a set bit toggles, the XOR with a clear bit does not. -/
theorem drawTogglesTheCoveredPixels : Obligations.DrawTogglesTheCoveredPixels := by
  intro x y n s hcells
  have hexec := exec_drw_of_inside x y n s ((cellsExist_iff_last s.I n.val).2 hcells)
  refine ⟨_, hexec, rfl, fun r hr => State.getV_setV_ne s vf r _ hr, fun px py => ?_⟩
  rw [exec_drw_pixelAt hexec, ← spriteBitAt_iff]
  cases spriteBitAt x y n s px py <;> simp

/-- Settles O44: the flag is 0 or 1, and 1 exactly at a collision, which an unchanged framebuffer rules out. -/
theorem drawReportsTheCollision : Obligations.DrawReportsTheCollision := by
  refine fun x y n s => ⟨fun t h => ?_, fun hn hlast => ?_⟩
  · have hzero : ¬(∃ px py, pixelAt s.fb px py = true ∧ pixelAt t.fb px py = false) → t.getV 15 = 0 := fun hnone =>
      (getV_flag_of_drw x y n s t h).resolve_right (mt (exec_drw_flag_iff h).1 hnone)
    refine ⟨(exec_drw_flag_iff h).2, hzero, fun hn => ?_⟩
    have hfb := exec_drw_fb_of_no_rows h hn
    refine ⟨hfb, hzero ?_⟩
    rintro ⟨px, py, hon, hoff⟩
    rw [hfb, hon] at hoff
    cases hoff
  · refine exec_drw_of_outside x y n s ?_
    rw [cellsExist_iff_last]
    omega

/-- Settles O45: the second draw XORs every pixel with the same bit again, so a pixel it turns off is one that the first
turned on. -/
theorem drawingTwiceRestores : Obligations.DrawingTwiceRestores := by
  intro x y n s t u hfirst hfb hmem hI hx hy
  obtain ⟨hcells, -⟩ := execDrw_next x y n s t hfirst
  obtain ⟨v, hsecond⟩ : ∃ v, exec (.drw x y n) u = .next v := ⟨_, exec_drw_of_inside x y n u (by rwa [hI])⟩
  have hrestored : v.fb = s.fb := by
    refine fb_ext _ _ fun px py => ?_
    rw [exec_drw_pixelAt hsecond, hfb, exec_drw_pixelAt hfirst, spriteBitAt_congr n hmem hI hx hy, Bool.xor_assoc,
      Bool.xor_self, Bool.xor_false]
  refine ⟨v, hsecond, hrestored, ?_⟩
  simp only [exec_drw_flag_iff hsecond, hfb, hrestored, and_comm]

end Sys2Proof.Machine
end

section
/-! Timers and keypad (spec/45_timers_keypad.md): one equation per instruction and case; what the countdown leaves of a timer
is `countDown_toNat`, and which key a wait takes is `State.lowestKey_eq_some_iff`. -/

namespace Sys2Proof.Machine

open Sys2Proof.Claims

/-! ## Timers (R145 to R147) -/

theorem exec_ldVxDt (x : RegIdx) (s : State) : exec (.ldVxDt x) s = .next (s.setV x s.DT) := rfl

theorem exec_ldDtVx (x : RegIdx) (s : State) : exec (.ldDtVx x) s = .next (s.setDT (s.getV x)) := rfl

theorem exec_ldStVx (x : RegIdx) (s : State) : exec (.ldStVx x) s = .next (s.setST (s.getV x)) := rfl

theorem toNat_ticked_DT (t : State) : (ticked t).DT.toNat = t.DT.toNat - 1 := countDown_toNat t.DT

theorem toNat_ticked_ST (t : State) : (ticked t).ST.toNat = t.ST.toNat - 1 := countDown_toNat t.ST

/-- A fetchable step whose execute phase completes ends with the countdown of what that phase left. -/
theorem stepWith_of_exec_next (keys : Vector Bool 16) (rnd : Byte) (s u : State) (i : Instr) (hpc : s.pc.toNat ≤ 4094)
    (hi : instrAtPc s = i) (hu : exec i (fetched { s with keypad := keys, rnd := rnd }) = .next u) :
    stepWith keys rnd s = .next (ticked u) := by
  rw [stepWith_of_fetchable keys rnd s hpc, hi, hu, onNext_next]

/-- Settles O46: each of the three is one write, and the countdown acts on the state that the write left. -/
theorem timerReadAndWrites : Obligations.TimerReadAndWrites := by
  refine fun x s => ⟨⟨_, exec_ldVxDt x s, State.getV_setV_same s x _, sameButRegisters_setV s x _⟩, exec_ldDtVx x s,
    exec_ldStVx x s, fun keys rnd hpc => ⟨fun hi => ?_, fun hi => ?_, fun hi => ?_⟩⟩
  · exact ⟨_, stepWith_of_exec_next keys rnd s _ _ hpc hi (exec_ldVxDt x _), State.getV_setV_same _ x _,
      toNat_ticked_DT _, toNat_ticked_ST _⟩
  · exact ⟨_, stepWith_of_exec_next keys rnd s _ _ hpc hi (exec_ldDtVx x _), toNat_ticked_DT _, toNat_ticked_ST _⟩
  · exact ⟨_, stepWith_of_exec_next keys rnd s _ _ hpc hi (exec_ldStVx x _), toNat_ticked_ST _, toNat_ticked_DT _⟩

/-! ## Key skips (R148, R149, R161) -/

theorem exec_skp_of_key (x : RegIdx) (s : State) (k : KeyIdx) (h : (s.getV x).toNat = k.val) :
    exec (.skp x) s = .next (s.skipIf (s.keyHeld k)) := by
  rw [exec, execSkp_eq, keyIndex_eq _ k h, Option.elim_some]

theorem exec_sknp_of_key (x : RegIdx) (s : State) (k : KeyIdx) (h : (s.getV x).toNat = k.val) :
    exec (.sknp x) s = .next (s.skipIf (!s.keyHeld k)) := by
  rw [exec, execSknp_eq, keyIndex_eq _ k h, Option.elim_some]

theorem exec_skp_of_no_key (x : RegIdx) (s : State) (h : 15 < (s.getV x).toNat) :
    exec (.skp x) s = .fault .invalidKeyIndex := by
  rw [exec, execSkp_eq, keyIndex_none _ h, Option.elim_none, raise]

theorem exec_sknp_of_no_key (x : RegIdx) (s : State) (h : 15 < (s.getV x).toNat) :
    exec (.sknp x) s = .fault .invalidKeyIndex := by
  rw [exec, execSknp_eq, keyIndex_none _ h, Option.elim_none, raise]

theorem State.skipIf_not (s : State) (c : Bool) :
    s.skipIf (!c) = { s with pc := if c then s.pc else s.pc + 2 } := by
  cases c <;> rfl

/-- Settles O47: a key number selects one skip on the key's flag, a larger value the fault. -/
theorem keySkipsTestTheKey : Obligations.KeySkipsTestTheKey := by
  refine fun x s => ⟨fun k hk => ⟨?_, ?_⟩, fun hlarge => ⟨exec_skp_of_no_key x s hlarge, exec_sknp_of_no_key x s hlarge⟩⟩
  · rw [exec_skp_of_key x s k hk, State.skipIf_eq, State.keyHeld]
  · rw [exec_sknp_of_key x s k hk, State.skipIf_not, State.keyHeld]

/-! ## The wait for a key (R150) -/

theorem State.lowestKey_eq_find? (s : State) : s.lowestKey = Fin.find? s.keyHeld := Fin.find?_eq_find?_finRange.symm

theorem State.lowestKey_eq_some_iff (s : State) (k : KeyIdx) :
    s.lowestKey = some k ↔ s.keyHeld k = true ∧ ∀ j, j < k → s.keyHeld j = false := by
  rw [State.lowestKey_eq_find?, Fin.find?_eq_some_iff]

theorem State.lowestKey_eq_none_iff (s : State) : s.lowestKey = none ↔ ∀ k, s.keyHeld k = false := by
  rw [State.lowestKey_eq_find?, Fin.find?_eq_none_iff]

theorem exec_ldVxK_of_key (x : RegIdx) (s : State) (k : KeyIdx) (h : s.lowestKey = some k) :
    exec (.ldVxK x) s = .next (s.setV x (BitVec.ofNat 8 k.val)) := by
  rw [exec, execLdVxK, h]

theorem exec_ldVxK_of_no_key (x : RegIdx) (s : State) (h : s.lowestKey = none) :
    exec (.ldVxK x) s = .next (s.setPc (s.pc - 2)) := by
  rw [exec, execLdVxK, h]

/-- Settles O48: `State.lowestKey` is the key that the first clause describes, and the rewind undoes the advance of the
fetch. -/
theorem keyWaitTakesTheLowestKey : Obligations.KeyWaitTakesTheLowestKey := by
  refine fun x s => ⟨fun k hheld hlower => ?_, fun hnone => ⟨?_, fun u hu => ?_⟩⟩
  · refine ⟨_, exec_ldVxK_of_key x s k ((s.lowestKey_eq_some_iff k).2 ⟨hheld, hlower⟩), ?_, sameButRegisters_setV s x _⟩
    rw [State.getV_setV_same, BitVec.toNat_ofNat]
    omega
  · exact exec_ldVxK_of_no_key x s (s.lowestKey_eq_none_iff.2 hnone)
  · rw [hu]
    exact BitVec.add_sub_cancel u.pc 2

end Sys2Proof.Machine
end

section
/-! Exceptions (spec/60_exceptions.md): which fault an execute phase raises is said once, in `exec_fault_iff`, and which
fault a step raises in `stepWith_fault_iff`; the countdown of a completed step is read off `step_next`. -/

namespace Sys2Proof.Machine

open Sys2Proof.Claims

/-! ## What a fault leaves (R160) -/

theorem responseOf_eq_fault_iff (r : Result) (f : Fault) : responseOf r = .fault f ↔ r = .fault f := by
  cases r <;> simp [responseOf]

theorem faultState_of_response_fault (before : State) (r : Result) (f : Fault) (h : responseOf r = .fault f) :
    faultState before r = before := by
  rw [(responseOf_eq_fault_iff r f).1 h, faultState]

/-- Settles O12: the state before is `s.withArgs keys rnd` for a step and `s` for a load. -/
theorem faultLeavesTheState : Obligations.FaultLeavesTheState :=
  ⟨fun _ _ _ f => faultState_of_response_fault _ _ f, fun _ _ f => faultState_of_response_fault _ _ f⟩

/-! ## Which fault an execute phase raises (R157, R158, R161) -/

/-- A result that is the fault `g` under a condition, and a next state otherwise. -/
theorem fault_iff_of_condition {r : Result} {g : Fault} (c : Prop) [Decidable c] (hfault : c → r = .fault g)
    (hnext : ¬c → ∃ t, r = .next t) (f : Fault) : r = .fault f ↔ (if c then some g else none) = some f := by
  by_cases hc : c
  · simp [hfault hc, hc]
  · obtain ⟨t, ht⟩ := hnext hc
    simp [ht, hc]

theorem exec_fault_iff (i : Instr) (s : State) (f : Fault) : exec i s = .fault f ↔ executeFault i s = some f := by
  cases i with
  | call nnn =>
    exact fault_iff_of_condition _ (exec_call_of_full nnn s) (fun h => ⟨_, exec_call_of_free nnn s (by omega)⟩) f
  | ret =>
    exact fault_iff_of_condition _ (exec_ret_of_empty s)
      (fun h => ⟨_, exec_ret_of_saved s ⟨s.SP.val - 1, by omega⟩ (Nat.succ_pred h).symm⟩) f
  | skp x =>
    exact fault_iff_of_condition _ (exec_skp_of_no_key x s)
      (fun h => ⟨_, exec_skp_of_key x s ⟨(s.getV x).toNat, by omega⟩ rfl⟩) f
  | sknp x =>
    exact fault_iff_of_condition _ (exec_sknp_of_no_key x s)
      (fun h => ⟨_, exec_sknp_of_key x s ⟨(s.getV x).toNat, by omega⟩ rfl⟩) f
  | ldBVx x =>
    exact fault_iff_of_condition _ (exec_ldBVx_of_outside x s)
      (fun h => ⟨_, exec_ldBVx_of_inside x s (Nat.not_lt.1 h)⟩) f
  | ldMemVx x =>
    exact fault_iff_of_condition _ (exec_ldMemVx_of_outside x s)
      (fun h => ⟨_, exec_ldMemVx_of_inside x s (Nat.not_lt.1 h)⟩) f
  | ldVxMem x =>
    exact fault_iff_of_condition _ (exec_ldVxMem_of_outside x s)
      (fun h => ⟨_, exec_ldVxMem_of_inside x s (Nat.not_lt.1 h)⟩) f
  | drw x y n =>
    have hlast := cellsExist_iff_last s.I n.val
    exact fault_iff_of_condition _ (fun h => exec_drw_of_outside x y n s (by omega))
      (fun h => ⟨_, exec_drw_of_inside x y n s (by omega)⟩) f
  | _ => exact iff_of_false nofun nofun

/-! ## Which fault a step raises (R155, R162) -/

theorem onNext_eq_fault_iff (r : Result) (k : State → State) (f : Fault) : onNext r k = .fault f ↔ r = .fault f := by
  cases r <;> simp [onNext]

/-- Neither the host's write nor the fetch touches what the fault conditions speak of: the registers, `I` and `SP`. -/
theorem executeFault_fetched_withArgs (i : Instr) (s : State) (keys : Vector Bool 16) (rnd : Byte) :
    executeFault i (fetched (s.withArgs keys rnd)) = executeFault i s := rfl

theorem stepWith_fault_iff (keys : Vector Bool 16) (rnd : Byte) (s : State) (f : Fault) :
    stepWith keys rnd s = .fault f ↔ (4095 ≤ s.pc.toNat ∧ f = .addressOutOfRange) ∨
      (s.pc.toNat ≤ 4094 ∧ executeFault (instrAtPc s) s = some f) := by
  by_cases hpc : s.pc.toNat ≤ 4094
  · rw [stepWith_of_fetchable keys rnd s hpc, onNext_eq_fault_iff, exec_fault_iff,
      ← executeFault_fetched_withArgs (instrAtPc s) s keys rnd, or_iff_right (fun h => by omega), and_iff_right hpc]
    rfl
  · rw [stepWith_of_not_fetchable keys rnd s (by omega), or_iff_left (fun h => hpc h.1), and_iff_right (by omega),
      Host.Outcome.fault.injEq, eq_comm]

/-- Settles O11: the machine's step is a step with the next arguments, from a state with another queue. -/
theorem stepFaultsExactlyWhen : Obligations.StepFaultsExactlyWhen := fun s =>
  stepWith_fault_iff s.nextInput.keys s.nextInput.rnd { s with inputs := s.inputs.tail, draw := s.draw + 1 }

/-- Settles O13: a faulting step leaves `s` but for its arguments, and the conditions of `stepWith_fault_iff` speak of no
arguments. -/
theorem faultRepeats : Obligations.FaultRepeats := by
  intro keys keys' rnd rnd' s f h
  have hfault : stepWith keys rnd s = .fault f := (responseOf_eq_fault_iff _ f).1 h
  rw [transact_step_of_fault keys rnd s f hfault]
  refine (responseOf_eq_fault_iff _ f).2 ?_
  exact (stepWith_fault_iff keys' rnd' (s.withArgs keys rnd) f).2 ((stepWith_fault_iff keys rnd s f).1 hfault)

/-! ## The depth of the stack (R158) -/

theorem callAll_cons_of_next {nnn : Addr} {s t : State} (rest : List Addr) (h : exec (.call nnn) s = .next t) :
    callAll (nnn :: rest) s = callAll rest t := by
  rw [callAll, h]

theorem callAll_of_room (targets : List Addr) (s : State) (h : s.SP.val + targets.length ≤ 16) :
    ∃ t, callAll targets s = .next t ∧ t.SP.val = s.SP.val + targets.length := by
  induction targets generalizing s with
  | nil => exact ⟨s, rfl, rfl⟩
  | cons nnn rest ih =>
    rw [List.length_cons, Nat.add_comm rest.length, ← Nat.add_assoc] at h ⊢
    rw [callAll_cons_of_next rest (exec_call_of_free nnn s (by omega))]
    exact ih _ h

/-- Settles O25: sixteen calls fill the stack that `callAll_of_room` finds room in. -/
theorem sixteenCallsThenOverflow : Obligations.SixteenCallsThenOverflow := by
  refine ⟨fun targets s hSP hlen => ?_, exec_call_of_full, exec_ret_of_empty⟩
  obtain ⟨t, hcalls, ht⟩ := callAll_of_room targets s (by omega)
  have hfull : t.SP.val = 16 := by omega
  exact ⟨t, hcalls, hfull, fun nnn => exec_call_of_full nnn t hfull⟩

/-! ## The countdown (R166, R167) -/

/-- Everything that a completed step of the machine has done. -/
theorem step_next (s t : State) (h : step s = .next t) :
    ∃ u, exec (instrAtPc s) (fetched s.latchInput) = .next u ∧ t = ticked u :=
  stepWith_next s.nextInput.keys s.nextInput.rnd { s with inputs := s.inputs.tail, draw := s.draw + 1 } t h

/-- Settles O50: the countdown acts on what the execute phase left, which is the old timer but for its one writer. -/
theorem everyStepCountsTheTimersDown : Obligations.EveryStepCountsTheTimersDown := by
  intro s t h
  obtain ⟨u, hu, rfl⟩ := step_next s t h
  rw [toNat_ticked_DT, toNat_ticked_ST]
  refine ⟨fun x hi => ?_, fun hi => ?_, fun x hi => ?_, fun hi => ?_⟩
  · rw [hi, exec_ldDtVx] at hu
    cases hu
    rfl
  · rw [exec_DT_eq _ _ u hu hi]
    rfl
  · rw [hi, exec_ldStVx] at hu
    cases hu
    rfl
  · rw [exec_ST_eq _ _ u hu hi]
    rfl

/-- Settles O51, by induction on the number of steps. -/
theorem delayTimerCountsSteps : Obligations.DelayTimerCountsSteps := by
  intro n
  induction n with
  | zero =>
    intro s t _ hrun
    rw [core_run_zero_next s t hrun, Nat.sub_zero]
  | succ k ih =>
    rintro s t ⟨hnow, hlater⟩ hrun
    obtain ⟨u, hstep, hrest⟩ := core_run_succ_next k s t hrun
    obtain ⟨-, hcount, -⟩ := everyStepCountsTheTimersDown s u hstep
    rw [ih u t (hlater u hstep) hrest, hcount fun x hx => hnow ⟨x, hx⟩, Nat.sub_sub, Nat.add_comm]

end Sys2Proof.Machine
end

section
/-! Reset, boot and safe runs (spec/70_reset_and_hazards.md): a reset and a load by their answer and the state they leave;
`NoFault` and `SafeRun` by their first transaction and first step, and the machine's run of its queue as the host's session. -/

namespace Sys2Proof.Machine

open Sys2Proof.Claims

/-! ## Reset (R180) -/

theorem transact_reset (s : State) :
    transact .reset s = (.ok, { State.reset with inputs := s.inputs, draw := s.draw }) := rfl

theorem State.getV_reset (r : RegIdx) : State.reset.getV r = 0 := Vector.getElem_replicate r.isLt

theorem State.reset_read (a : Nat) : State.reset.mem.read a = resetByte a := rfl

/-- Settles O14: memory lists no cell after a reset, so every address reads as `resetByte`. -/
theorem resetLeavesTheResetValues : Obligations.ResetLeavesTheResetValues := fun s =>
  ⟨_, transact_reset s, State.getV_reset, rfl, rfl, fun k => Vector.getElem_replicate k.isLt, rfl, rfl, rfl,
    fun k => Vector.getElem_replicate k.isLt, pixelAt_clear, rfl,
    fun i hi => (State.reset_read _).trans (resetByte_font i hi),
    fun a ha => (State.reset_read a).trans (resetByte_plain a ha)⟩

/-! ## The load as a transaction (R96, R156, R182, R183) -/

theorem transact_loadProgram_of_fits (bytes : List Byte) (s : State) (h : bytes.length ≤ 3584) :
    transact (.loadProgram bytes) s = (.ok, s.setMem (s.mem.writeBytes 0x200 bytes)) := by
  rw [transact, loadProgram_of_fits bytes s h, responseOf, faultState]

theorem transact_loadProgram_of_tooLarge (bytes : List Byte) (s : State) (h : 3584 < bytes.length) :
    transact (.loadProgram bytes) s = (.fault .programTooLarge, s) := by
  rw [transact, loadProgram_of_tooLarge bytes s h, responseOf, faultState]

/-- A load that fits gives `Loaded` where memory is as at reset, which is where it lists no cell. -/
theorem loaded_setMem_writeBytes (bytes : List Byte) (s : State) (h : bytes.length ≤ 3584) :
    Loaded bytes (s.setMem (Memory.writeBytes [] 0x200 bytes)) :=
  ⟨h, fun a => Memory.read_writeBytes [] 0x200 a bytes⟩

/-- Settles O16: the load after a reset is one block write of a memory that lists no cell. -/
theorem bootGivesTheLaunchPremises : Obligations.BootGivesTheLaunchPremises := by
  intro bytes s hfits
  have hend : 0x200 + bytes.length ≤ Config.memSize := Nat.add_le_add_left hfits 0x200
  refine ⟨rfl, _, ?_, loaded_setMem_writeBytes bytes (hostReset s) hfits, rfl,
    Memory.writeBytes_wf [] 0x200 bytes Memory.nil_wf (.inr hend), rfl⟩
  simp only [session, transact_reset, transact_loadProgram_of_fits bytes _ hfits]
  rfl

/-! ## `NoFault` and `SafeRun`, one transaction at a time (R183) -/

theorem noFault_nil (s : State) : NoFault [] s := by simp [NoFault]

theorem noFault_cons_iff (q : Transaction) (qs : List Transaction) (s : State) : NoFault (q :: qs) s ↔
    (∀ keys rnd, q = .step keys rnd → ∀ f, (transact q s).1 ≠ .fault f) ∧ NoFault qs (transact q s).2 :=
  List.forall_mem_cons

/-- What a load answers does not count. -/
theorem noFault_loadProgram_cons_iff (bytes : List Byte) (qs : List Transaction) (s : State) :
    NoFault (.loadProgram bytes :: qs) s ↔ NoFault qs (transact (.loadProgram bytes) s).2 :=
  (noFault_cons_iff _ qs s).trans (and_iff_right nofun)

theorem noFault_step_cons_of_next {keys : Vector Bool 16} {rnd : Byte} {s t : State} (qs : List Transaction)
    (h : stepWith keys rnd s = .next t) : NoFault (.step keys rnd :: qs) s ↔ NoFault qs t := by
  rw [noFault_cons_iff, transact, h]
  exact and_iff_right nofun

theorem not_noFault_step_cons_of_fault {keys : Vector Bool 16} {rnd : Byte} {s : State} {f : Fault} (qs : List Transaction)
    (h : stepWith keys rnd s = .fault f) : ¬NoFault (.step keys rnd :: qs) s := by
  rw [noFault_cons_iff, transact_step_of_fault keys rnd s f h]
  exact fun hno => hno.1 keys rnd rfl f rfl

theorem safeRun_zero (s : State) : SafeRun 0 s := ⟨s, rfl⟩

theorem safeRun_succ_iff (n : Nat) (s : State) : SafeRun (n + 1) s ↔ ∃ u, step s = .next u ∧ SafeRun n u := by
  constructor
  · rintro ⟨t, hrun⟩
    obtain ⟨u, hstep, hrest⟩ := core_run_succ_next n s t hrun
    exact ⟨u, hstep, t, hrest⟩
  · rintro ⟨u, hstep, t, hrest⟩
    exact ⟨t, (core_run_succ_of_next n s u hstep).trans hrest⟩

theorem stepWith_ne_refused (keys : Vector Bool 16) (rnd : Byte) (s : State) (q : Refusal) : stepWith keys rnd s ≠ .refused q :=
  cycle_ne_refused (s.withArgs keys rnd) q

/-! ## The machine's run of its queue is the host's session (R8, R183) -/

/-- By induction on the queue: the machine's step is the host's, but for the queue and the counter, which the session's states
are free to differ in. -/
theorem safeRun_withQueue_iff_noFault (queue : List StepInput) (s : State) (n : Nat) :
    SafeRun queue.length (s.withQueue queue n) ↔ NoFault (queue.map asStep) s := by
  induction queue generalizing s n with
  | nil => exact iff_of_true (safeRun_zero _) (noFault_nil s)
  | cons input rest ih =>
    have hstep : step (s.withQueue (input :: rest) n) =
        onNext (stepWith input.keys input.rnd s) fun t => t.withQueue rest (n + 1) :=
      stepWith_withQueue input.keys input.rnd s rest (n + 1)
    rw [List.length_cons, List.map_cons, safeRun_succ_iff, hstep, asStep]
    cases hs : stepWith input.keys input.rnd s with
    | next t =>
      rw [noFault_step_cons_of_next _ hs, ← ih t (n + 1)]
      simp [onNext_next]
    | fault f => exact iff_of_false nofun (not_noFault_step_cons_of_fault _ hs)
    | refused q => exact absurd hs (stepWith_ne_refused _ _ s q)

/-- Settles O59: the state with its own queue, and a refused load as a load that changes nothing. -/
theorem noFaultOfStepsIsASafeRun : Obligations.NoFaultOfStepsIsASafeRun := by
  refine fun s => ⟨safeRun_withQueue_iff_noFault s.inputs s s.draw, fun bytes hlong => ?_⟩
  rw [noFault_loadProgram_cons_iff, transact_loadProgram_of_tooLarge bytes s hlong]

end Sys2Proof.Machine
end
